-- ==== Sys2Proof/Word.lean ====
section
/-! DEFINITION. The widths of the machine: bytes, words, addresses and register numbers (spec 00 R5, R9: every value is unsigned). -/

namespace Sys2Proof

/-- A register or a memory cell: 8 bits, unsigned (10 R11, 20 R31). -/
abbrev Byte := BitVec 8

/-- An opcode, a call-stack slot or the program counter: 16 bits (30 R50, 10 R16, R20). -/
abbrev Word := BitVec 16

/-- A 12-bit address, the `nnn` field: it can name every memory cell and nothing else (20 R31). -/
abbrev Addr := BitVec 12

/-- A 4-bit opcode field (30 R51). -/
abbrev Nibble := BitVec 4

/-- The number of a general register, 0 to 15: every value an instruction can form is valid (10 R11). -/
abbrev RegIdx := Fin 16

end Sys2Proof
end

