-- ==== Sys2Proof/Syntax.lean ====
section
/-! DEFINITION. The instructions, one constructor per row of spec/opcode_table.json (30 R55), their mnemonics, their
operand forms (30 R52), and the source lines of the spec's assembler notation (30 R61, R62). -/

namespace Sys2Proof

/-- The 17 instructions of the closed instruction set, in the order of the opcode map (30 R55).
Every value of every operand is legal (30 R53, R60), so the operand types say all there is to check. -/
inductive Instr where
  /-- 0000: stop the run loop (41 R80). -/
  | halt
  /-- 00E0: recognised and inert (41 R81). -/
  | cls
  /-- 00EE: return from a call (41 R82). -/
  | ret
  /-- 1nnn: jump (41 R83). -/
  | jp (nnn : Addr)
  /-- 2nnn: call a routine (41 R84). -/
  | call (nnn : Addr)
  /-- 3xkk: skip if register equals immediate (42 R90). -/
  | seI (x : RegIdx) (kk : Byte)
  /-- 4xkk: skip if register differs from immediate (42 R91). -/
  | sneI (x : RegIdx) (kk : Byte)
  /-- 5xy0: skip if two registers are equal (42 R92). -/
  | seR (x y : RegIdx)
  /-- 9xy0: skip if two registers differ (42 R93). -/
  | sneR (x y : RegIdx)
  /-- 6xkk: set a register (43 R95). -/
  | ldI (x : RegIdx) (kk : Byte)
  /-- 7xkk: add an immediate, no flag (43 R96). -/
  | addI (x : RegIdx) (kk : Byte)
  /-- 8xy0: copy a register (44 R100). -/
  | ldR (x y : RegIdx)
  /-- 8xy1: bitwise OR (44 R101). -/
  | orR (x y : RegIdx)
  /-- 8xy2: bitwise AND (44 R102). -/
  | andR (x y : RegIdx)
  /-- 8xy3: bitwise exclusive OR (44 R103). -/
  | xorR (x y : RegIdx)
  /-- 8xy4: add with carry out (44 R104). -/
  | addR (x y : RegIdx)
  /-- 8xy5: subtract with inverted borrow flag (44 R105). -/
  | subR (x y : RegIdx)
  deriving DecidableEq, Repr

/-- The mnemonics of 30 R55: the name of a row without its operands. -/
inductive Mnemonic where
  | halt | cls | ret | jp | call | seI | sneI | seR | sneR
  | ldI | addI | ldR | orR | andR | xorR | addR | subR
  deriving DecidableEq, Repr

/-- The four operand forms (30 R52). -/
inductive Form where
  /-- No operand. -/
  | z
  /-- One 12-bit address `nnn`. -/
  | a
  /-- A register `x` and an immediate `kk`. -/
  | xk
  /-- Two registers `x` and `y`. -/
  | xy
  deriving DecidableEq, Repr

/-- One row of the opcode map: a word `w` is the instruction of the row exactly when
`w &&& mask = pattern` (30 R55). -/
structure OpRow where
  mnemonic : Mnemonic
  pattern : Word
  mask : Word
  form : Form
  deriving DecidableEq, Repr

/-- Why the decoder rejects a byte string. -/
inductive DecodeError where
  /-- The word matches no row of the opcode map (30 R57); it carries the word. -/
  | undefinedEncoding (op : Word)
  /-- Fewer than two bytes: no instruction has another length than 2 (30 R50). DESIGN CHOICE, log entry 24: safe. -/
  | truncated
  deriving DecidableEq, Repr

/-- An operand as it stands in a source line: a register number or a literal, not yet checked (30 R61). -/
inductive Operand where
  | reg (i : Nat)
  | lit (n : Nat)
  deriving DecidableEq, Repr

/-- A line of the assembler notation (30 R61) or one of its two directives (30 R62).
DESIGN CHOICE, log entry 23: the line is held as data; `Machine/Listing.lean` has its text. -/
inductive SourceLine where
  | instr (m : Mnemonic) (operands : List Operand)
  | dw (w : Nat)
  | db (b : Nat)
  deriving DecidableEq, Repr

end Sys2Proof
end

