-- ==== Sys2Proof/WellFormed.lean ====
section
/-! DEFINITION. Which source lines are well formed (30 R61, R62). An `Instr` needs no check of its own: its operand types
admit exactly the values of the fields, and "every value of an operand field is legal" (30 R60). -/

namespace Sys2Proof

/-- The operand form of each mnemonic (30 R52). -/
def Mnemonic.form : Mnemonic → Form
  | .halt => .z | .cls => .z | .ret => .z
  | .jp => .a | .call => .a
  | .seI => .xk | .sneI => .xk | .ldI => .xk | .addI => .xk
  | .seR => .xy | .sneR => .xy
  | .ldR => .xy | .orR => .xy | .andR => .xy | .xorR => .xy | .addR => .xy | .subR => .xy

/-- The mnemonic as the opcode table spells it (30 R55). -/
def Mnemonic.name : Mnemonic → String
  | .halt => "HALT" | .cls => "CLS" | .ret => "RET" | .jp => "JP" | .call => "CALL"
  | .seI => "SE_I" | .sneI => "SNE_I" | .seR => "SE_R" | .sneR => "SNE_R"
  | .ldI => "LD_I" | .addI => "ADD_I" | .ldR => "LD_R"
  | .orR => "OR" | .andR => "AND" | .xorR => "XOR" | .addR => "ADD_R" | .subR => "SUB_R"

/-- The mnemonic of an instruction. -/
def Instr.mnemonic : Instr → Mnemonic
  | .halt => .halt
  | .cls => .cls
  | .ret => .ret
  | .jp _ => .jp
  | .call _ => .call
  | .seI _ _ => .seI
  | .sneI _ _ => .sneI
  | .seR _ _ => .seR
  | .sneR _ _ => .sneR
  | .ldI _ _ => .ldI
  | .addI _ _ => .addI
  | .ldR _ _ => .ldR
  | .orR _ _ => .orR
  | .andR _ _ => .andR
  | .xorR _ _ => .xorR
  | .addR _ _ => .addR
  | .subR _ _ => .subR

/-- The operands of a source line fit a form: their number and kind (30 R52), the register numbers 0 to 15, `kk` a byte,
`nnn` a 12-bit address (30 R51, R61). -/
def Form.fits : Form → List Operand → Bool
  | .z, [] => true
  | .a, [.lit n] => n < 4096
  | .xk, [.reg x, .lit k] => x < 16 && k < 256
  | .xy, [.reg x, .reg y] => x < 16 && y < 16
  | _, _ => false

/-- A source line is well formed (30 R61, R62). -/
def SourceLine.wellFormed : SourceLine → Bool
  | .instr m operands => m.form.fits operands
  | .dw w => w < 65536
  | .db b => b < 256

end Sys2Proof
end

