-- ==== Sys2Proof/Decode.lean ====
section
/-! DEFINITION. The decoder, total on any bytes and rejecting by name (30 R51 to R57), the encoder written from the same
patterns, the opcode map as data, and the assembler of source lines (30 R61, R62). -/

namespace Sys2Proof

/-! ## Fields of an opcode (30 R51) -/

/-- `class`, bits 15 to 12. -/
def fieldClass (op : Word) : Nibble := op.extractLsb' 12 4

/-- `x`, bits 11 to 8, as a register number. -/
def fieldX (op : Word) : RegIdx := (op.extractLsb' 8 4).toFin

/-- `y`, bits 7 to 4, as a register number. -/
def fieldY (op : Word) : RegIdx := (op.extractLsb' 4 4).toFin

/-- `d`, bits 3 to 0. -/
def fieldD (op : Word) : Nibble := op.extractLsb' 0 4

/-- `nnn`, bits 11 to 0. -/
def fieldNnn (op : Word) : Addr := op.extractLsb' 0 12

/-- `kk`, bits 7 to 0. -/
def fieldKk (op : Word) : Byte := op.extractLsb' 0 8

/-! ## Decoding -/

/-- Class 0: all 16 bits are compared (30 R60). -/
def decodeClass0 (op : Word) : Option Instr :=
  if op = 0x0000#16 then some .halt
  else if op = 0x00E0#16 then some .cls
  else if op = 0x00EE#16 then some .ret
  else none

/-- Class 8: `d` selects the operation (30 R55). -/
def decodeClass8 (x y : RegIdx) (d : Nibble) : Option Instr :=
  match d.toNat with
  | 0 => some (.ldR x y)
  | 1 => some (.orR x y)
  | 2 => some (.andR x y)
  | 3 => some (.xorR x y)
  | 4 => some (.addR x y)
  | 5 => some (.subR x y)
  | _ => none

/-- The instruction of an opcode: the class is the first dispatch key (30 R51, R54, R55; 40 R66). `none` for the undefined
encodings, the classes A to F among them (30 R57). -/
def decodeWord (op : Word) : Option Instr :=
  match (fieldClass op).toNat with
  | 0 => decodeClass0 op
  | 1 => some (.jp (fieldNnn op))
  | 2 => some (.call (fieldNnn op))
  | 3 => some (.seI (fieldX op) (fieldKk op))
  | 4 => some (.sneI (fieldX op) (fieldKk op))
  | 5 => if fieldD op = 0x0#4 then some (.seR (fieldX op) (fieldY op)) else none
  | 6 => some (.ldI (fieldX op) (fieldKk op))
  | 7 => some (.addI (fieldX op) (fieldKk op))
  | 8 => decodeClass8 (fieldX op) (fieldY op) (fieldD op)
  | 9 => if fieldD op = 0x0#4 then some (.sneR (fieldX op) (fieldY op)) else none
  | _ => none

/-- The opcode two bytes make: big-endian, the high byte at the lower address (20 R33). -/
def wordOfBytes (hi lo : Byte) : Word := hi ++ lo

/-- Decodes the first instruction of a byte string, lowest address first, and gives the bytes after it.
Every instruction is exactly two bytes (30 R50). -/
def decode : List Byte → Except DecodeError (Instr × List Byte)
  | hi :: lo :: rest =>
    match decodeWord (wordOfBytes hi lo) with
    | some i => .ok (i, rest)
    | none => .error (.undefinedEncoding (wordOfBytes hi lo))
  | [_] => .error .truncated
  | [] => .error .truncated

/-! ## Encoding (the patterns of 30 R55) -/

/-- A register number as a 4-bit field. -/
def regField (i : RegIdx) : Nibble := BitVec.ofFin i

/-- Form A: `class ++ nnn` (30 R52). -/
def formA (cls : Nibble) (nnn : Addr) : Word := cls ++ nnn

/-- Form XK: `class ++ x ++ kk` (30 R52). -/
def formXK (cls : Nibble) (x : RegIdx) (kk : Byte) : Word := cls ++ regField x ++ kk

/-- Form XY: `class ++ x ++ y ++ d` (30 R52). -/
def formXY (cls : Nibble) (x y : RegIdx) (d : Nibble) : Word := cls ++ regField x ++ regField y ++ d

/-- The word of an instruction (30 R55). -/
def encode : Instr → Word
  | .halt => 0x0000#16
  | .cls => 0x00E0#16
  | .ret => 0x00EE#16
  | .jp nnn => formA 0x1#4 nnn
  | .call nnn => formA 0x2#4 nnn
  | .seI x kk => formXK 0x3#4 x kk
  | .sneI x kk => formXK 0x4#4 x kk
  | .seR x y => formXY 0x5#4 x y 0x0#4
  | .sneR x y => formXY 0x9#4 x y 0x0#4
  | .ldI x kk => formXK 0x6#4 x kk
  | .addI x kk => formXK 0x7#4 x kk
  | .ldR x y => formXY 0x8#4 x y 0x0#4
  | .orR x y => formXY 0x8#4 x y 0x1#4
  | .andR x y => formXY 0x8#4 x y 0x2#4
  | .xorR x y => formXY 0x8#4 x y 0x3#4
  | .addR x y => formXY 0x8#4 x y 0x4#4
  | .subR x y => formXY 0x8#4 x y 0x5#4

/-- The byte of a word that stands at the lower address (20 R33). -/
def highByte (op : Word) : Byte := op.extractLsb' 8 8

/-- The byte of a word that stands at the higher address (20 R33). -/
def lowByte (op : Word) : Byte := op.extractLsb' 0 8

/-- A word as memory holds it, lowest address first (20 R33). -/
def bytesOfWord (op : Word) : List Byte := [highByte op, lowByte op]

/-- The bytes of an instruction, lowest address first. -/
def encodeBytes (i : Instr) : List Byte := bytesOfWord (encode i)

/-! ## The opcode map as data (30 R55) -/

/-- The 17 rows of the opcode map, in the spec's order. -/
def opcodeTable : List OpRow :=
  [ ⟨.halt, 0x0000#16, 0xFFFF#16, .z⟩,
    ⟨.cls, 0x00E0#16, 0xFFFF#16, .z⟩,
    ⟨.ret, 0x00EE#16, 0xFFFF#16, .z⟩,
    ⟨.jp, 0x1000#16, 0xF000#16, .a⟩,
    ⟨.call, 0x2000#16, 0xF000#16, .a⟩,
    ⟨.seI, 0x3000#16, 0xF000#16, .xk⟩,
    ⟨.sneI, 0x4000#16, 0xF000#16, .xk⟩,
    ⟨.seR, 0x5000#16, 0xF00F#16, .xy⟩,
    ⟨.sneR, 0x9000#16, 0xF00F#16, .xy⟩,
    ⟨.ldI, 0x6000#16, 0xF000#16, .xk⟩,
    ⟨.addI, 0x7000#16, 0xF000#16, .xk⟩,
    ⟨.ldR, 0x8000#16, 0xF00F#16, .xy⟩,
    ⟨.orR, 0x8001#16, 0xF00F#16, .xy⟩,
    ⟨.andR, 0x8002#16, 0xF00F#16, .xy⟩,
    ⟨.xorR, 0x8003#16, 0xF00F#16, .xy⟩,
    ⟨.addR, 0x8004#16, 0xF00F#16, .xy⟩,
    ⟨.subR, 0x8005#16, 0xF00F#16, .xy⟩ ]

/-- The row selects the word: `(w & mask) = match` (30 R55). -/
def OpRow.selects (r : OpRow) (w : Word) : Bool := (w &&& r.mask) == r.pattern

/-- The mnemonic the opcode map selects, `none` for an undefined encoding (30 R54, R57). -/
def selectMnemonic (w : Word) : Option Mnemonic :=
  (opcodeTable.find? (·.selects w)).map OpRow.mnemonic

/-! ## The assembler notation (30 R61, R62) -/

/-- A register operand, refused above 15. -/
def regOfNat (n : Nat) : Option RegIdx := if h : n < 16 then some ⟨n, h⟩ else none

/-- A byte literal, refused above 255. -/
def byteOfNat (n : Nat) : Option Byte := if n < 256 then some (BitVec.ofNat 8 n) else none

/-- A 12-bit address literal, refused above 4095. -/
def addrOfNat (n : Nat) : Option Addr := if n < 4096 then some (BitVec.ofNat 12 n) else none

/-- Reads the operands of form A. -/
def operandsA (mk : Addr → Instr) : List Operand → Option Instr
  | [.lit n] => (addrOfNat n).map mk
  | _ => none

/-- Reads the operands of form XK: the destination or tested register first (30 R61). -/
def operandsXK (mk : RegIdx → Byte → Instr) : List Operand → Option Instr
  | [.reg x, .lit k] => (regOfNat x).bind fun x => (byteOfNat k).map (mk x)
  | _ => none

/-- Reads the operands of form XY: the destination is the first operand (30 R61). -/
def operandsXY (mk : RegIdx → RegIdx → Instr) : List Operand → Option Instr
  | [.reg x, .reg y] => (regOfNat x).bind fun x => (regOfNat y).map (mk x)
  | _ => none

/-- Reads the operands of form Z: there are none. -/
def operandsZ (i : Instr) : List Operand → Option Instr
  | [] => some i
  | _ => none

/-- The instruction of a mnemonic and its operands (30 R61). -/
def instrOfSource : Mnemonic → List Operand → Option Instr
  | .halt => operandsZ .halt
  | .cls => operandsZ .cls
  | .ret => operandsZ .ret
  | .jp => operandsA .jp
  | .call => operandsA .call
  | .seI => operandsXK .seI
  | .sneI => operandsXK .sneI
  | .seR => operandsXY .seR
  | .sneR => operandsXY .sneR
  | .ldI => operandsXK .ldI
  | .addI => operandsXK .addI
  | .ldR => operandsXY .ldR
  | .orR => operandsXY .orR
  | .andR => operandsXY .andR
  | .xorR => operandsXY .xorR
  | .addR => operandsXY .addR
  | .subR => operandsXY .subR

/-- The bytes a source line places, lowest address first; `DW` places its word big-endian (30 R61, R62). -/
def assemble : SourceLine → Option (List Byte)
  | .instr m operands => (instrOfSource m operands).map encodeBytes
  | .dw w => if w < 65536 then some (bytesOfWord (BitVec.ofNat 16 w)) else none
  | .db b => (byteOfNat b).map fun b => [b]

/-- The operands of an instruction as a source line writes them (30 R61). -/
def Instr.operands : Instr → List Operand
  | .halt => []
  | .cls => []
  | .ret => []
  | .jp nnn => [.lit nnn.toNat]
  | .call nnn => [.lit nnn.toNat]
  | .seI x kk => [.reg x, .lit kk.toNat]
  | .sneI x kk => [.reg x, .lit kk.toNat]
  | .seR x y => [.reg x, .reg y]
  | .sneR x y => [.reg x, .reg y]
  | .ldI x kk => [.reg x, .lit kk.toNat]
  | .addI x kk => [.reg x, .lit kk.toNat]
  | .ldR x y => [.reg x, .reg y]
  | .orR x y => [.reg x, .reg y]
  | .andR x y => [.reg x, .reg y]
  | .xorR x y => [.reg x, .reg y]
  | .addR x y => [.reg x, .reg y]
  | .subR x y => [.reg x, .reg y]

/-- The source line of an instruction. -/
def Instr.source (i : Instr) : SourceLine := .instr i.mnemonic i.operands

/-! ## The host's table words -/

/-- The 16-bit opcode of a table word: its low `nbits` bits, at most 16 of them. -/
def tableWord (nbits w : Nat) : Word := BitVec.ofNat 16 (w % 2 ^ nbits)

/-- What the decoder reads from the instruction whose bits are `w`, laid out in memory order. -/
def decodeTableWord (nbits w : Nat) : Option Instr :=
  match decode (bytesOfWord (tableWord nbits w)) with
  | .ok (i, _) => some i
  | .error _ => none

end Sys2Proof
end

