-- ==== Sys2Proof/Config.lean ====
section
/-! DEFINITION. The implementation parameters of spec 00 R5. The machine leaves no value undefined, so there is no free value here. -/

namespace Sys2Proof.Config

/-- MEMSIZE: bytes of memory, addresses 0x000 to 0xFFF (00 R5). -/
abbrev memSize : Nat := 4096

/-- STACKDEPTH: slots of the call stack (00 R5). -/
abbrev stackDepth : Nat := 16

/-- The highest address an opcode can be fetched from (20 R36). -/
abbrev lastFetch : Nat := 0x0FFE

/-- FLAGREG: the register that holds the carry and no-borrow flag (00 R5, 10 R14). -/
abbrev flagReg : RegIdx := 15

/-- START_PC as `State.reset` takes it. The spec leaves it an open parameter, "conventionally 0"
(00 R5, decision D11). DESIGN CHOICE 0x0000 (log entry 1, unsafe): a claim about reset is stated for
`State.resetAt startPc` with any `startPc`. -/
def startPc : Word := 0x0000#16

end Sys2Proof.Config
end

