-- ==== Sys2Proof/Machine/State.lean ====
section
/-! DEFINITION. The whole state of the core, the eight elements of 10 R10 and nothing else; the reset state (10 R29);
the reasons a step can stop. -/

namespace Sys2Proof.Machine

/-- `STATUS`, the state of the dispatch loop (10 R23). -/
inductive Status where
  /-- Reset done, not yet launched. -/
  | idle
  /-- The core executes one cycle after another. -/
  | running
  /-- The core decoded 0x0000 and stopped. -/
  | halted
  /-- A fatal condition stopped the core. -/
  | faulted
  deriving DecidableEq, Repr

/-- `FAULT_CAUSE`, the fatal condition recorded (10 R24, 60 R136). -/
inductive FaultCause where
  /-- No fault recorded. -/
  | none
  /-- `CALL` with `SP = 16` (60 R138). -/
  | stackOverflow
  /-- `RET` with `SP = 0` (60 R139). -/
  | stackUnderflow
  /-- The fetched word matches no pattern (60 R140). -/
  | unknownOpcode
  /-- `PC > 0x0FFE` at the start of the cycle (60 R141). -/
  | fetchOutOfBounds
  deriving DecidableEq, Repr

/-- `MEM`: the cells whose byte differs from what an unlisted address reads as, addresses strictly rising
(log entry 7). -/
abbrev Memory := List Host.Cell

/-- The state of the core (10 R10). -/
structure State where
  /-- `V[0..15]`, `V[15]` being the flag register too (10 R11, R14). -/
  v : Vector Byte 16
  /-- `MEM[0..4095]` (10 R22). -/
  mem : Memory
  /-- `STACK[0..15]` (10 R20). -/
  stack : Vector Word 16
  /-- `SP`, the count of used slots, 5 bits (10 R21). -/
  sp : BitVec 5
  /-- `PC`, the address of the next opcode to fetch (10 R16). -/
  pc : Word
  /-- `STATUS` (10 R23). -/
  status : Status
  /-- `FAULT_CAUSE` (10 R24). -/
  faultCause : FaultCause
  /-- `FAULT_INFO` (10 R24). -/
  faultInfo : Word
  deriving DecidableEq, Repr

/-- Why a step stops with no next state. The four fatal conditions of the spec are NOT here: each of them is a next state
with `STATUS = faulted` (60 R137, log entry 9). -/
inductive Fault where
  /-- Raised by `CALL` and `RET` when `SP` holds 17 to 31, values that name a slot the machine does not have and that
  "are never produced by the core" (10 R21). Safe: no well-formed state raises it. DESIGN CHOICE, log entry 4. -/
  | stackSlotAbsent
  deriving DecidableEq, Repr

/-- Why the model gives an instruction no meaning. -/
inductive Refusal where
  /-- Raised by `exec`'s arm of an instruction that has no meaning yet; no arm is such. Safe. -/
  | notModelled (mnemonic : String)
  deriving DecidableEq, Repr

/-- The state right after reset, for the start address the caller chose (10 R29). -/
def State.resetAt (startPc : Word) : State where
  v := Vector.replicate 16 0x00#8
  mem := []
  stack := Vector.replicate 16 0x0000#16
  sp := 0#5
  pc := startPc
  status := .idle
  faultCause := .none
  faultInfo := 0x0000#16

/-- The state right after reset with `START_PC` at its conventional value (10 R29, log entry 1). -/
def State.reset : State := State.resetAt Config.startPc

end Sys2Proof.Machine
end

