-- ==== Sys2Proof/Machine/Ops.lean ====
section
/-! DEFINITION. The named operations over memory, registers, call stack and program counter (20, 10, 50 R111 to R116), and
the one operation that enters a fatal condition (60 R137). There is no return from a fatal condition (60 R144): only
`reset` leaves it, and that is the host port's. -/

namespace Sys2Proof.Machine

/-! ## Memory (20) -/

/-- What an address the list does not hold reads as: reset fills memory with zero (10 R29). -/
def Memory.unlisted : Byte := 0x00#8

/-- The byte held at an address, by the list alone. -/
def Memory.byteAt : Memory → Nat → Byte
  | [], _ => Memory.unlisted
  | (a, b) :: rest, addr => if addr = a then b else Memory.byteAt rest addr

/-- Sets one byte and keeps the canonical form: a byte equal to the unlisted value has no entry. -/
def Memory.setByte : Memory → Nat → Byte → Memory
  | [], addr, b => if b = Memory.unlisted then [] else [(addr, b)]
  | (a, c) :: rest, addr, b =>
    if addr < a then (if b = Memory.unlisted then (a, c) :: rest else (addr, b) :: (a, c) :: rest)
    else if addr = a then (if b = Memory.unlisted then rest else (addr, b) :: rest)
    else (a, c) :: Memory.setByte rest addr b

/-- The canonical form: addresses strictly rising, all below 4096, no entry equal to the unlisted byte. -/
abbrev Memory.wf (m : Memory) : Prop :=
  List.Pairwise (fun c d : Host.Cell => c.1 < d.1) m ∧
    ∀ c ∈ m, c.1 < Config.memSize ∧ c.2 ≠ Memory.unlisted

/-- `MemRead(addr, 1)`: defined for addresses 0 to 4095 only (20 R32). -/
def Memory.read (m : Memory) (addr : Nat) : Option Byte :=
  if addr < Config.memSize then some (Memory.byteAt m addr) else none

/-- `MemRead(addr, n)`: the bytes at `addr` to `addr + n - 1`, lowest address first (20 R32). -/
def Memory.readBytes (m : Memory) (addr : Nat) : Nat → Option (List Byte)
  | 0 => some []
  | n + 1 =>
    match Memory.read m addr, Memory.readBytes m (addr + 1) n with
    | some b, some bs => some (b :: bs)
    | _, _ => none

/-- `MemWrite(addr, 1, b)`: refused outside 0 to 4095 (20 R41). -/
def Memory.write (m : Memory) (addr : Nat) (b : Byte) : Option Memory :=
  if addr < Config.memSize then some (Memory.setByte m addr b) else none

/-- The bytes one after another from `addr`, with no check of the bound. -/
def Memory.setBytes (m : Memory) (addr : Nat) : List Byte → Memory
  | [] => m
  | b :: bs => Memory.setBytes (Memory.setByte m addr b) (addr + 1) bs

/-- `MemWrite(addr, n, v)`: byte `i` of `v` at `addr + i`; refused as a whole when it leaves 0 to 4095, "changes nothing"
(20 R41, log entry 25). -/
def Memory.writeBytes (m : Memory) (addr : Nat) (bytes : List Byte) : Option Memory :=
  if addr + bytes.length ≤ Config.memSize then some (Memory.setBytes m addr bytes) else none

/-- One byte of the state's memory (20 R32). -/
def State.readMem (s : State) (addr : Nat) : Option Byte := Memory.read s.mem addr

/-! ## Registers (10 R11) -/

/-- `V[i]`. -/
def State.reg (s : State) (i : RegIdx) : Byte := s.v[i]

/-- `V[i] <- b`: no register is hardwired and none is guarded (10 R11, R15). -/
def State.setReg (s : State) (i : RegIdx) (b : Byte) : State := { s with v := s.v.set i b }

/-! ## Call stack (10 R20, 50 R115) -/

/-- `STACK[i]`. -/
def State.slot (s : State) (i : Fin 16) : Word := s.stack[i]

/-- `STACK[SP] <- w`, then `SP <- SP + 1`; `none` when there is no slot `SP` (41 R84). -/
def State.push (s : State) (w : Word) : Option State :=
  if h : s.sp.toNat < 16 then some { s with stack := s.stack.set s.sp.toNat w, sp := s.sp + 1#5 } else none

/-- `SP <- SP - 1`, and the slot at the new `SP`, which keeps its value; `none` when there is no such slot (41 R82). -/
def State.pop (s : State) : Option (State × Word) :=
  if h : (s.sp - 1#5).toNat < 16 then some ({ s with sp := s.sp - 1#5 }, s.stack[(s.sp - 1#5).toNat]) else none

/-! ## Program counter (50 R116) -/

/-- `PC <- PC + 2`: the unconditional advance (40 R68). -/
def State.advance (s : State) : State := { s with pc := s.pc + 2#16 }

/-- `PC <- t`. -/
def State.setPc (s : State) (t : Word) : State := { s with pc := t }

/-- `PC <- PC + 2` when the condition of a skip holds (42 R90 to R93). -/
def State.skipIf (s : State) (cond : Bool) : State := if cond then { s with pc := s.pc + 2#16 } else s

/-- `p`, the address the current opcode was fetched from, while a handler acts: `PC` already holds `p + 2`
(10 R16). DEDUCED, log entry 5. -/
def State.instrAddr (s : State) : Word := s.pc - 2#16

/-! ## Run state and fault record (10 R23, R24; 60 R136, R137) -/

/-- The 2-bit code of `STATUS` (10 R23). -/
def Status.code : Status → BitVec 2
  | .idle => 0#2
  | .running => 1#2
  | .halted => 2#2
  | .faulted => 3#2

/-- The 3-bit code of `FAULT_CAUSE`; codes 5 to 7 are never produced (60 R136). -/
def FaultCause.code : FaultCause → BitVec 3
  | .none => 0#3
  | .stackOverflow => 1#3
  | .stackUnderflow => 2#3
  | .unknownOpcode => 3#3
  | .fetchOutOfBounds => 4#3

/-- `STATUS <- st`. -/
def State.setStatus (s : State) (st : Status) : State := { s with status := st }

/-- `raise Fatal(cause, info)`: exactly these three writes (60 R137). What the step did before stands. -/
def State.raiseFatal (s : State) (cause : FaultCause) (info : Word) : State :=
  { s with status := .faulted, faultCause := cause, faultInfo := info }

/-! ## Fetch (40 R67, 20 R36) -/

/-- The bound a fetch needs: `p <= 0x0FFE`, so that `p + 1` is a valid memory index (20 R36). -/
def fetchOk (p : Word) : Bool := p.toNat ≤ Config.lastFetch

/-- The opcode at `PC`: `MEM[p] ++ MEM[p+1]`; `none` when the bound fails, and then nothing is read (20 R33, R36). -/
def State.fetch (s : State) : Option Word :=
  if fetchOk s.pc then
    match s.readMem s.pc.toNat, s.readMem (s.pc.toNat + 1) with
    | some hi, some lo => some (wordOfBytes hi lo)
    | _, _ => none
  else none

end Sys2Proof.Machine
end

