-- ==== Sys2Proof/Machine/Operands.lean ====
section
/-! DEFINITION. The operand values of the four forms (30 R52, R53): read once, before any write (44 R106). -/

namespace Sys2Proof.Machine

/-- Form A: `nnn` as it is written to `PC`, its upper four bits zero (30 R53). -/
def targetOf (nnn : Addr) : Word := nnn.setWidth 16

/-- Form XK: `V[x]` and the byte `kk` as cut, neither extended nor scaled (30 R53). -/
def State.valuesXK (s : State) (x : RegIdx) (kk : Byte) : Byte × Byte := (s.reg x, kk)

/-- Form XY: `V[x]` and `V[y]`, both as they stood at the start of the cycle (44 R106). -/
def State.valuesXY (s : State) (x y : RegIdx) : Byte × Byte := (s.reg x, s.reg y)

end Sys2Proof.Machine
end

