-- ==== Sys2Proof/Machine/Flags.lean ====
section
/-! DEFINITION. The arithmetic of bytes and the two flag computations (44 R104, R105, R107; 10 R14). The flag is the whole
register `V[15]`. -/

namespace Sys2Proof.Machine

/-- `trunc_8` of an exact integer: its value modulo 256 (00 R8, 44 R107). -/
def trunc8 (n : Int) : Byte := BitVec.ofInt 8 n

/-- The sum modulo 256, computed exactly and then truncated (44 R107). -/
def addBytes (a b : Byte) : Byte := trunc8 ((a.toNat : Int) + b.toNat)

/-- The difference modulo 256, `a - b + 256` when `a < b` (44 R105, R107). -/
def subBytes (a b : Byte) : Byte := trunc8 ((a.toNat : Int) - b.toNat)

/-- The carry out of bit 7 of an addition: 0x01 when the exact sum is above 255, else 0x00 (44 R104). -/
def carryFlag (a b : Byte) : Byte := if a.toNat + b.toNat > 255 then 0x01#8 else 0x00#8

/-- The no-borrow flag of a subtraction: 0x00 when `a < b`, else 0x01 (44 R105). -/
def noBorrowFlag (a b : Byte) : Byte := if a.toNat < b.toNat then 0x00#8 else 0x01#8

/-- The two writes of `ADD_R` and `SUB_R`: the result into `V[x]` first, the flag into `V[15]` last (44 R106,
log entry 12). -/
def State.setResultAndFlag (s : State) (x : RegIdx) (result flag : Byte) : State :=
  (s.setReg x result).setReg Config.flagReg flag

end Sys2Proof.Machine
end

