-- ==== Sys2Proof/Machine/Alu.lean ====
section
/-! DEFINITION. The register-register instructions LD_R, OR, AND, XOR, ADD_R, SUB_R (44): operands read first, then the
result, then the flag where there is one (44 R106). -/

namespace Sys2Proof.Machine

/-- `LD_R Vx, Vy` (44 R100). -/
def execLdR (x y : RegIdx) (s : State) : Host.Outcome State Fault Refusal :=
  let (_, b) := s.valuesXY x y
  .next (s.setReg x b)

/-- `OR Vx, Vy` (44 R101): no flag. -/
def execOrR (x y : RegIdx) (s : State) : Host.Outcome State Fault Refusal :=
  let (a, b) := s.valuesXY x y
  .next (s.setReg x (a ||| b))

/-- `AND Vx, Vy` (44 R102): no flag. -/
def execAndR (x y : RegIdx) (s : State) : Host.Outcome State Fault Refusal :=
  let (a, b) := s.valuesXY x y
  .next (s.setReg x (a &&& b))

/-- `XOR Vx, Vy` (44 R103): no flag. -/
def execXorR (x y : RegIdx) (s : State) : Host.Outcome State Fault Refusal :=
  let (a, b) := s.valuesXY x y
  .next (s.setReg x (a ^^^ b))

/-- `ADD_R Vx, Vy` (44 R104): carry out into `V[15]`; no carry in. -/
def execAddR (x y : RegIdx) (s : State) : Host.Outcome State Fault Refusal :=
  let (a, b) := s.valuesXY x y
  .next (s.setResultAndFlag x (addBytes a b) (carryFlag a b))

/-- `SUB_R Vx, Vy` (44 R105): no-borrow into `V[15]`; no borrow in. -/
def execSubR (x y : RegIdx) (s : State) : Host.Outcome State Fault Refusal :=
  let (a, b) := s.valuesXY x y
  .next (s.setResultAndFlag x (subBytes a b) (noBorrowFlag a b))

end Sys2Proof.Machine
end

