-- ==== Sys2Proof/Machine/Control.lean ====
section
/-! DEFINITION. The control-flow instructions HALT, CLS, RET, JP, CALL (41). A handler runs with `PC` already at `p + 2`
(40 R68). -/

namespace Sys2Proof.Machine

/-- `HALT` (41 R80): the handler writes only `STATUS`. -/
def execHalt (s : State) : Host.Outcome State Fault Refusal := .next (s.setStatus .halted)

/-- `CLS` (41 R81): recognised and inert, nothing is written. -/
def execCls (s : State) : Host.Outcome State Fault Refusal := .next s

/-- `RET` (41 R82): the check comes before the pop. -/
def execRet (s : State) : Host.Outcome State Fault Refusal :=
  if s.sp = 0#5 then .next (s.raiseFatal .stackUnderflow s.instrAddr)
  else
    match s.pop with
    | some (t, w) => .next (t.setPc w)
    | none => .fault .stackSlotAbsent

/-- `JP nnn` (41 R83): an absolute target, any of the 4096. -/
def execJp (nnn : Addr) (s : State) : Host.Outcome State Fault Refusal := .next (s.setPc (targetOf nnn))

/-- `CALL nnn` (41 R84): the check comes before the push; the pushed value is the advanced `PC`. -/
def execCall (nnn : Addr) (s : State) : Host.Outcome State Fault Refusal :=
  if s.sp = 16#5 then .next (s.raiseFatal .stackOverflow s.instrAddr)
  else
    match s.push s.pc with
    | some t => .next (t.setPc (targetOf nnn))
    | none => .fault .stackSlotAbsent

end Sys2Proof.Machine
end

