-- ==== Sys2Proof/Machine/Immediate.lean ====
section
/-! DEFINITION. The register-immediate instructions LD_I, ADD_I (43). Neither writes a flag. -/

namespace Sys2Proof.Machine

/-- `LD_I Vx, kk` (43 R95). -/
def execLdI (x : RegIdx) (kk : Byte) (s : State) : Host.Outcome State Fault Refusal := .next (s.setReg x kk)

/-- `ADD_I Vx, kk` (43 R96): wraps modulo 256, no flag. -/
def execAddI (x : RegIdx) (kk : Byte) (s : State) : Host.Outcome State Fault Refusal :=
  let (a, k) := s.valuesXK x kk
  .next (s.setReg x (addBytes a k))

end Sys2Proof.Machine
end

