-- ==== Sys2Proof/Machine/Skip.lean ====
section
/-! DEFINITION. The conditional skips SE_I, SNE_I, SE_R, SNE_R (42): the comparison is of two unsigned bytes. -/

namespace Sys2Proof.Machine

/-- `SE_I Vx, kk` (42 R90). -/
def execSeI (x : RegIdx) (kk : Byte) (s : State) : Host.Outcome State Fault Refusal :=
  let (a, k) := s.valuesXK x kk
  .next (s.skipIf (a == k))

/-- `SNE_I Vx, kk` (42 R91). -/
def execSneI (x : RegIdx) (kk : Byte) (s : State) : Host.Outcome State Fault Refusal :=
  let (a, k) := s.valuesXK x kk
  .next (s.skipIf (a != k))

/-- `SE_R Vx, Vy` (42 R92). -/
def execSeR (x y : RegIdx) (s : State) : Host.Outcome State Fault Refusal :=
  let (a, b) := s.valuesXY x y
  .next (s.skipIf (a == b))

/-- `SNE_R Vx, Vy` (42 R93). -/
def execSneR (x y : RegIdx) (s : State) : Host.Outcome State Fault Refusal :=
  let (a, b) := s.valuesXY x y
  .next (s.skipIf (a != b))

end Sys2Proof.Machine
end

