-- ==== Sys2Proof/Machine/Dispatch.lean ====
section
/-! DEFINITION. One arm per instruction: the handler that 40 R70 selects, run on the state whose PC is already advanced. -/

namespace Sys2Proof.Machine

def exec (i : Instr) (s : State) : Host.Outcome State Fault Refusal :=
  match i with
  | .halt => Sys2Proof.Machine.execHalt s
  | .cls => Sys2Proof.Machine.execCls s
  | .ret => Sys2Proof.Machine.execRet s
  | .jp nnn => Sys2Proof.Machine.execJp nnn s
  | .call nnn => Sys2Proof.Machine.execCall nnn s
  | .seI x kk => Sys2Proof.Machine.execSeI x kk s
  | .sneI x kk => Sys2Proof.Machine.execSneI x kk s
  | .seR x y => Sys2Proof.Machine.execSeR x y s
  | .sneR x y => Sys2Proof.Machine.execSneR x y s
  | .ldI x kk => Sys2Proof.Machine.execLdI x kk s
  | .addI x kk => Sys2Proof.Machine.execAddI x kk s
  | .ldR x y => Sys2Proof.Machine.execLdR x y s
  | .orR x y => Sys2Proof.Machine.execOrR x y s
  | .andR x y => Sys2Proof.Machine.execAndR x y s
  | .xorR x y => Sys2Proof.Machine.execXorR x y s
  | .addR x y => Sys2Proof.Machine.execAddR x y s
  | .subR x y => Sys2Proof.Machine.execSubR x y s

end Sys2Proof.Machine
end

