-- ==== Sys2Proof/Machine/Cycle.lean ====
section
/-! DEFINITION. One instruction cycle: fetch, advance, decode, dispatch (40 R66), the stopped core (40 R65), and what it
takes to make a given word the next instruction. -/

namespace Sys2Proof.Machine

/-- Decode and dispatch, on a state whose `PC` is already advanced: the one matching handler runs once, and a word that
matches no pattern is the fatal condition UnknownOpcode carrying the word (40 R70, 60 R140). -/
def State.dispatch (s : State) (op : Word) : Host.Outcome State Fault Refusal :=
  match decodeWord op with
  | some i => exec i s
  | none => .next (s.raiseFatal .unknownOpcode op)

/-- The step function of 40 R66: a fetch out of bounds ends it with nothing read and `PC` unchanged (20 R36, 60 R141). -/
def cycle (s : State) : Host.Outcome State Fault Refusal :=
  match s.fetch with
  | some op => s.advance.dispatch op
  | none => .next (s.raiseFatal .fetchOutOfBounds s.pc)

/-- The core moves only while `STATUS = running`; otherwise it "takes no step and changes nothing" (40 R65), which the
total step function answers by the same state. DESIGN CHOICE, log entry 3. -/
def coreStep (s : State) : Host.Outcome State Fault Refusal :=
  match s.status with
  | .running => cycle s
  | .idle => .next s
  | .halted => .next s
  | .faulted => .next s

/-- The state with a word placed where the next fetch reads, and launched. It stands for the host's two `write_mem` and
its `run` (log entry 2); where `PC` allows no fetch it moves to 0, and a fault record is cleared (log entry 6). -/
def State.placeForFetch (s : State) (op : Word) : State :=
  let p : Word := if fetchOk s.pc then s.pc else 0x0000#16
  { s with
    mem := Memory.setBytes s.mem p.toNat (bytesOfWord op)
    pc := p
    status := .running
    faultCause := .none
    faultInfo := 0x0000#16 }

end Sys2Proof.Machine
end

