-- ==== Sys2Proof/Machine/Step.lean ====
section
/-! DEFINITION. The step of the core, and the placing of a word as the next instruction. -/

namespace Sys2Proof.Machine

/-- One step of the core (40 R65, R66). -/
def step (s : State) : Host.Outcome State Fault Refusal := coreStep s

/-- `s` with the instruction whose bits are `w` stored where the next step fetches it, and the core launched, so that the
very next step runs it (log entries 2 and 6). -/
def State.withFetchWord (s : State) (nbits w : Nat) : State := s.placeForFetch (tableWord nbits w)

end Sys2Proof.Machine
end

