-- ==== Sys2Proof/Machine/Blocks.lean ====
section
/-! DEFINITION. The eight sub-blocks and the control table (50 R110 to R119): a second description of one step, written
from the blocks' interfaces and not from the instruction rules. It shares with the rest of the model only the state, the
field cut (30 R51), the opcode map as data (30 R55) and the arithmetic of bytes (44 R107). Log entry 22. -/

namespace Sys2Proof.Machine

/-- memory_interface, the core's read port: one byte at a 12-bit address, always within 0 to 4095 (50 R114). -/
def memoryInterface (mem : Memory) (a : Addr) : Byte := Memory.byteAt mem a.toNat

/-- fetch_unit: the opcode when `fetch_ok`, with the read addresses `p` and `p + 1` of 12 bits; `none` is `fetch_ok = 0`
(50 R111). -/
def fetchUnit (p : Word) (mem : Memory) : Option Word :=
  if p ≤ 0x0FFE#16 then
    some (memoryInterface mem (p.setWidth 12) ++ memoryInterface mem ((p + 1#16).setWidth 12))
  else none

/-- What instruction_decoder puts out (50 R112); `sel = none` is `undefined`. -/
structure Decoded where
  cls : Nibble
  x : RegIdx
  y : RegIdx
  d : Nibble
  nnn : Addr
  kk : Byte
  sel : Option Mnemonic
  deriving DecidableEq, Repr

/-- instruction_decoder: all six fields of every opcode, and the row of the opcode map that selects it (50 R112). -/
def instructionDecoder (op : Word) : Decoded where
  cls := fieldClass op
  x := fieldX op
  y := fieldY op
  d := fieldD op
  nnn := fieldNnn op
  kk := fieldKk op
  sel := selectMnemonic op

/-- The operation codes of alu_simple (50 R118, R119). -/
inductive AluOp where
  | unused
  | passKk
  | addKk
  | passB
  | orAB
  | andAB
  | xorAB
  | addAB
  | subAB
  | equalKk
  | differKk
  | equalB
  | differB
  deriving DecidableEq, Repr

/-- The outputs of alu_simple; an output an operation leaves unused is never enabled by the control table (50 R118). -/
structure AluOut where
  result : Byte := 0x00#8
  flag : Byte := 0x00#8
  cond : Bool := false
  deriving DecidableEq, Repr

/-- alu_simple (50 R118). -/
def aluSimple (f : AluOp) (a b kk : Byte) : AluOut :=
  match f with
  | .unused => {}
  | .passKk => { result := kk }
  | .addKk => { result := addBytes a kk }
  | .passB => { result := b }
  | .orAB => { result := a ||| b }
  | .andAB => { result := a &&& b }
  | .xorAB => { result := a ^^^ b }
  | .addAB => { result := addBytes a b, flag := carryFlag a b }
  | .subAB => { result := subBytes a b, flag := noBorrowFlag a b }
  | .equalKk => { cond := a == kk }
  | .differKk => { cond := a != kk }
  | .equalB => { cond := a == b }
  | .differB => { cond := a != b }

/-- The request dispatch_control makes of call_stack (50 R115). -/
inductive StackRequest where
  | none
  | push
  | pop
  deriving DecidableEq, Repr

/-- The operation of program_counter after the advance (50 R116). -/
inductive PcRequest where
  | none
  | loadNnn
  | loadPopped
  | skipIfCond
  deriving DecidableEq, Repr

/-- One row of the control table (50 R119). -/
structure Control where
  alu : AluOp := .unused
  resultPort : Bool := false
  flagPort : Bool := false
  stack : StackRequest := .none
  pc : PcRequest := .none
  halts : Bool := false
  deriving DecidableEq, Repr

/-- The control table (50 R119). The row `undefined` has no enable: dispatch_control raises UnknownOpcode. -/
def controlTable : Mnemonic → Control
  | .halt => { halts := true }
  | .cls => {}
  | .ret => { stack := .pop, pc := .loadPopped }
  | .jp => { pc := .loadNnn }
  | .call => { stack := .push, pc := .loadNnn }
  | .seI => { alu := .equalKk, pc := .skipIfCond }
  | .sneI => { alu := .differKk, pc := .skipIfCond }
  | .seR => { alu := .equalB, pc := .skipIfCond }
  | .sneR => { alu := .differB, pc := .skipIfCond }
  | .ldI => { alu := .passKk, resultPort := true }
  | .addI => { alu := .addKk, resultPort := true }
  | .ldR => { alu := .passB, resultPort := true }
  | .orR => { alu := .orAB, resultPort := true }
  | .andR => { alu := .andAB, resultPort := true }
  | .xorR => { alu := .xorAB, resultPort := true }
  | .addR => { alu := .addAB, resultPort := true, flagPort := true }
  | .subR => { alu := .subAB, resultPort := true, flagPort := true }

/-- register_file, the two write ports: the flag port's index is fixed at 15 and it wins over the result port
(50 R113). -/
def registerFile (v : Vector Byte 16) (x : RegIdx) (resultPort : Bool) (result : Byte) (flagPort : Bool) (flag : Byte) :
    Vector Byte 16 :=
  Vector.ofFn fun i : Fin 16 =>
    if flagPort ∧ i = Config.flagReg then flag
    else if resultPort ∧ i = x then result
    else v[i]

/-- The answer of call_stack: the slots and the pointer after the request and the popped value, or why it changed
nothing. `absent` is a pointer of 17 to 31, for which the spec gives no answer (log entry 4). -/
inductive StackAnswer where
  | ok (stack : Vector Word 16) (sp : BitVec 5) (popped : Word)
  | overflow
  | underflow
  | absent
  deriving DecidableEq, Repr

/-- call_stack (50 R115). -/
def callStack (stack : Vector Word 16) (sp : BitVec 5) (value : Word) : StackRequest → StackAnswer
  | .none => .ok stack sp 0x0000#16
  | .push =>
    if sp.toNat = 16 then .overflow
    else if h : sp.toNat < 16 then .ok (stack.set sp.toNat value) (sp + 1#5) 0x0000#16
    else .absent
  | .pop =>
    if sp.toNat = 0 then .underflow
    else if h : sp.toNat - 1 < 16 then .ok stack (sp - 1#5) stack[sp.toNat - 1]
    else .absent

/-- program_counter: the advance, then at most one of load and skip (50 R116). -/
def programCounter (p : Word) (request : PcRequest) (nnn : Addr) (popped : Word) (cond : Bool) : Word :=
  match request with
  | .none => p + 2#16
  | .loadNnn => nnn.setWidth 16
  | .loadPopped => popped
  | .skipIfCond => if cond then p + 4#16 else p + 2#16

/-- dispatch_control and the composition of the blocks: one step, enabled only while running (50 R110, R117). All writes
take effect together, computed from the values at the step's start. -/
def blockStep (s : State) : Host.Outcome State Fault Refusal :=
  if s.status ≠ .running then .next s
  else
    match fetchUnit s.pc s.mem with
    | none => .next { s with status := .faulted, faultCause := .fetchOutOfBounds, faultInfo := s.pc }
    | some op =>
      let dec := instructionDecoder op
      match dec.sel with
      | none =>
        .next { s with pc := s.pc + 2#16, status := .faulted, faultCause := .unknownOpcode, faultInfo := op }
      | some m =>
        let ctl := controlTable m
        let out := aluSimple ctl.alu (s.v[dec.x]) (s.v[dec.y]) dec.kk
        match callStack s.stack s.sp (s.pc + 2#16) ctl.stack with
        | .overflow =>
          .next { s with pc := s.pc + 2#16, status := .faulted, faultCause := .stackOverflow, faultInfo := s.pc }
        | .underflow =>
          .next { s with pc := s.pc + 2#16, status := .faulted, faultCause := .stackUnderflow, faultInfo := s.pc }
        | .absent => .fault .stackSlotAbsent
        | .ok stack sp popped =>
          .next
            { s with
              v := registerFile s.v dec.x ctl.resultPort out.result ctl.flagPort out.flag
              stack := stack
              sp := sp
              pc := programCounter s.pc ctl.pc dec.nnn popped out.cond
              status := if ctl.halts then .halted else .running }

end Sys2Proof.Machine
end

