-- ==== Sys2Proof/Machine/HostPort.lean ====
section
/-! DEFINITION. The host port (50 R126 to R130): how the host resets the core, prepares its state, launches it and reads
it. An operation the port does not allow is refused and changes nothing (50 R127). -/

namespace Sys2Proof.Machine

/-- The operations of the host port that may change the state (50 R126). -/
inductive HostOp where
  /-- Every element takes its reset value. -/
  | reset
  /-- `MEM[a] <- b`. -/
  | writeMem (a : Nat) (b : Byte)
  /-- `V[i] <- b`. -/
  | writeReg (i : RegIdx) (b : Byte)
  /-- `PC <- w`, any 16-bit value. -/
  | writePc (w : Word)
  /-- `STACK[i] <- w`. -/
  | writeStack (i : Fin 16) (w : Word)
  /-- `SP <- n`. -/
  | writeSp (n : Nat)
  /-- `STATUS <- running`: the launch. -/
  | run
  deriving DecidableEq, Repr

/-- The `read_*` operations: one per element of the state (50 R126). -/
inductive ReadOp where
  | reg (i : RegIdx)
  | mem (a : Nat)
  | slot (i : Fin 16)
  | sp
  | pc
  | status
  | faultCause
  | faultInfo
  deriving DecidableEq, Repr

/-- What a `read_*` operation returns. -/
inductive ReadValue where
  | byte (b : Byte)
  | word (w : Word)
  | count (n : BitVec 5)
  | status (st : Status)
  | cause (c : FaultCause)
  deriving DecidableEq, Repr

/-- The port's answer to an operation that may change the state. -/
inductive PortReply where
  /-- Done; the state after it. -/
  | accepted (s : State)
  /-- Refused; the state is as it was. -/
  | refused
  deriving DecidableEq, Repr

/-- The state after the port's answer. -/
def PortReply.stateFrom (r : PortReply) (s : State) : State :=
  match r with
  | .accepted t => t
  | .refused => s

/-- The column "allowed when" of the writes and of `run`: `STATUS` idle or halted (50 R126). -/
def State.hostMayWrite (s : State) : Bool :=
  match s.status with
  | .idle => true
  | .halted => true
  | .running => false
  | .faulted => false

/-- The column "allowed when" of the reads: `STATUS` not running (50 R126). -/
def State.hostMayRead (s : State) : Bool :=
  match s.status with
  | .idle => true
  | .halted => true
  | .running => false
  | .faulted => true

/-- A write of the host: refused unless the core is idle or halted, and refused when the write itself is out of range. -/
def State.hostWrite (s : State) (write : Option State) : PortReply :=
  if s.hostMayWrite then
    match write with
    | some t => .accepted t
    | none => .refused
  else .refused

/-- The host port, for a core whose `START_PC` is `startPc` (50 R126 to R128). -/
def hostPort (startPc : Word) (op : HostOp) (s : State) : PortReply :=
  match op with
  | .reset => .accepted (State.resetAt startPc)
  | .writeMem a b => s.hostWrite ((Memory.write s.mem a b).map fun m => { s with mem := m })
  | .writeReg i b => s.hostWrite (some (s.setReg i b))
  | .writePc w => s.hostWrite (some (s.setPc w))
  | .writeStack i w => s.hostWrite (some { s with stack := s.stack.set i w })
  | .writeSp n => s.hostWrite (if n ≤ 16 then some { s with sp := BitVec.ofNat 5 n } else none)
  | .run => s.hostWrite (some (s.setStatus .running))

/-- The element a `read_*` operation names. A memory address above 4095 names none and its read is refused: DESIGN CHOICE,
log entry 29, since 20 R32 leaves such a read undefined and 50 R127 does not list it. -/
def State.element (s : State) : ReadOp → Option ReadValue
  | .reg i => some (.byte (s.reg i))
  | .mem a => (s.readMem a).map .byte
  | .slot i => some (.word (s.slot i))
  | .sp => some (.count s.sp)
  | .pc => some (.word s.pc)
  | .status => some (.status s.status)
  | .faultCause => some (.cause s.faultCause)
  | .faultInfo => some (.word s.faultInfo)

/-- `read_*`: returns the element while the core is not running, `none` when refused; it changes nothing (50 R126). -/
def hostRead (op : ReadOp) (s : State) : Option ReadValue :=
  if s.hostMayRead then s.element op else none

/-- The outcome of a run as the host sees it (50 R129): `some true` is success, `some false` is failure, `none` is a core
that has not ended a run. -/
def State.runSucceeded (s : State) : Option Bool :=
  match s.status with
  | .halted => some true
  | .faulted => some false
  | .idle => none
  | .running => none

end Sys2Proof.Machine
end

