-- ==== Sys2Proof/Machine/System.lean ====
section
/-! DEFINITION. The core and its host together: the moves each can make, one after another (00 R6, 50 R130, 70 R157). A
host move lands between two steps of the core (log entry 26). -/

namespace Sys2Proof.Machine

/-- One move of the system: a step of the core or an operation of the host port. -/
inductive Move where
  | core
  | host (op : HostOp)
  deriving DecidableEq, Repr

/-- What a move does; a refused host operation changes nothing (50 R127). -/
def Move.apply (startPc : Word) (m : Move) (s : State) : Host.Outcome State Fault Refusal :=
  match m with
  | .core => step s
  | .host op => .next ((hostPort startPc op s).stateFrom s)

/-- The moves of a list one after another, stopping at the first that gives no next state. -/
def runMoves (startPc : Word) : List Move → State → Host.Outcome State Fault Refusal
  | [], s => .next s
  | m :: ms, s =>
    match m.apply startPc s with
    | .next t => runMoves startPc ms t
    | .fault r => .fault r
    | .refused r => .refused r

/-- `k` steps of the core one after another: a run, or a part of one (40 R72: the fuel is not part of the hardware). -/
def runSteps : Nat → State → Host.Outcome State Fault Refusal
  | 0, s => .next s
  | k + 1, s =>
    match step s with
    | .next t => runSteps k t
    | .fault r => .fault r
    | .refused r => .refused r

end Sys2Proof.Machine
end

