-- ==== Sys2Proof/Machine/Listing.lean ====
section
/-! DEFINITION. The text of the spec's assembler notation (30 R61, R62): reading a line, writing one, and placing a listing
in memory as the host's byte writes. Log entry 23. -/

namespace Sys2Proof.Machine

/-- A line of a listing: the address before the colon, if there is one, and the instruction or directive, if there is
one (30 R61). -/
structure ListingLine where
  address : Option Nat
  line : Option SourceLine
  deriving DecidableEq, Repr

/-- The value of a hexadecimal digit, upper case. -/
def hexValue (c : Char) : Option Nat :=
  if '0'.toNat ≤ c.toNat ∧ c.toNat ≤ '9'.toNat then some (c.toNat - '0'.toNat)
  else if 'A'.toNat ≤ c.toNat ∧ c.toNat ≤ 'F'.toNat then some (c.toNat - 'A'.toNat + 10)
  else none

/-- The number that digits of a base write after `acc`. -/
def digitsValue (base : Nat) : Nat → List Char → Option Nat
  | acc, [] => some acc
  | acc, c :: cs =>
    match hexValue c with
    | some d => if d < base then digitsValue base (acc * base + d) cs else none
    | none => none

/-- A literal: `0x` and hexadecimal digits, or decimal digits (30 R61). -/
def readNumber : List Char → Option Nat
  | '0' :: 'x' :: c :: cs => digitsValue 16 0 (c :: cs)
  | c :: cs => digitsValue 10 0 (c :: cs)
  | [] => none

/-- An operand: `V0` to `VF`, or a literal (30 R61). -/
def readOperand : List Char → Option Operand
  | ['V', c] => (hexValue c).map .reg
  | cs => (readNumber cs).map .lit

/-- A blank of a line. -/
def isBlank (c : Char) : Bool := c = ' ' || c = '\t'

/-- The text without blanks at its two ends. -/
def trimBlanks (cs : List Char) : List Char := ((cs.dropWhile isBlank).reverse.dropWhile isBlank).reverse

/-- The pieces of a text between the separators. -/
def pieces (sep : Char) : List Char → List (List Char)
  | [] => [[]]
  | c :: cs =>
    if c = sep then [] :: pieces sep cs
    else
      match pieces sep cs with
      | w :: ws => (c :: w) :: ws
      | [] => [[c]]

/-- All of a list's values, or none. -/
def allSome {α : Type} : List (Option α) → Option (List α)
  | [] => some []
  | some a :: rest => (allSome rest).map (a :: ·)
  | none :: _ => none

/-- The mnemonic a word spells, upper case (30 R61). -/
def readMnemonic (word : List Char) : Option Mnemonic :=
  (opcodeTable.map OpRow.mnemonic).find? fun m => m.name.toList == word

/-- The instruction or directive of a text with no address and no comment (30 R61, R62). -/
def readSource (cs : List Char) : Option SourceLine :=
  let word := cs.takeWhile (!isBlank ·)
  let rest := trimBlanks (cs.dropWhile (!isBlank ·))
  if word = ['D', 'W'] then (readNumber rest).map .dw
  else if word = ['D', 'B'] then (readNumber rest).map .db
  else
    match readMnemonic word with
    | some m =>
      if rest = [] then some (.instr m [])
      else (allSome ((pieces ',' rest).map fun p => readOperand (trimBlanks p))).map (.instr m)
    | none => none

/-- A line of a listing: `addr:` in hexadecimal digits before it, a comment from `;` on; both may be missing, and a line
may hold nothing else (30 R61). -/
def readLine (cs : List Char) : Option ListingLine :=
  let body := cs.takeWhile (· ≠ ';')
  let text (source : List Char) (address : Option Nat) : Option ListingLine :=
    let source := trimBlanks source
    if source = [] then some ⟨address, none⟩ else (readSource source).map fun l => ⟨address, some l⟩
  match pieces ':' body with
  | [source] => text source none
  | [address, source] =>
    match trimBlanks address with
    | [] => none
    | c :: digits => (digitsValue 16 0 (c :: digits)).bind fun n => text source (some n)
  | _ => none

/-- Bytes one after another from an address. -/
def placeBytes (origin : Nat) : List Byte → List Host.Cell
  | [] => []
  | b :: bs => (origin, b) :: placeBytes (origin + 1) bs

/-- The bytes a listing places, each at its address (30 R61, R62); a line with no address follows the one before it: DESIGN
CHOICE, log entry 23. -/
def placeLines : Nat → List ListingLine → Option (List Host.Cell)
  | _, [] => some []
  | here, l :: rest =>
    let start := l.address.getD here
    match l.line with
    | none => placeLines start rest
    | some source =>
      match assemble source with
      | some bytes => (placeLines (start + bytes.length) rest).map (placeBytes start bytes ++ ·)
      | none => none

/-- The bytes of a listing's text. Where its first line has no address the listing begins at address 0: DESIGN CHOICE, log
entry 23, since 30 R61 does not say. -/
def readListing (text : List Char) : Option (List Host.Cell) :=
  (allSome ((pieces '\n' text).map readLine)).bind (placeLines 0)

/-- The host's byte writes that load an image (70 R156). -/
def loadMoves (image : List Host.Cell) : List Move := image.map fun c => .host (.writeMem c.1 c.2)

/-! ## Writing a line -/

/-- A digit below 16. -/
def hexChar (d : Nat) : Char := if d < 10 then Char.ofNat ('0'.toNat + d) else Char.ofNat ('A'.toNat + (d - 10))

/-- A literal below 65536 in four upper-case hexadecimal digits, a byte or a 12-bit address too: DESIGN CHOICE, log
entry 23. -/
def writeNumber (n : Nat) : List Char :=
  ['0', 'x', hexChar (n / 4096 % 16), hexChar (n / 256 % 16), hexChar (n / 16 % 16), hexChar (n % 16)]

/-- An operand's text. -/
def writeOperand : Operand → List Char
  | .reg i => ['V', hexChar i]
  | .lit n => writeNumber n

/-- The text of an instruction's source line (30 R61). -/
def instrText (i : Instr) : List Char :=
  i.mnemonic.name.toList ++
    match i.operands with
    | [] => []
    | [a] => ' ' :: writeOperand a
    | a :: b :: _ => ' ' :: (writeOperand a ++ ',' :: ' ' :: writeOperand b)

end Sys2Proof.Machine
end

