-- ==== Sys2Proof/Safety.lean ====
section
/-! DEFINITION. The terms the statements use: well-formed states, invariants, what two states have in common, and the
start and end of a run. -/

namespace Sys2Proof.Machine

/-! ## Well-formed states -/

/-- A well-formed state (10 R28): `SP <= 16`, and no fault record unless faulted; with it the memory's canonical form
(log entry 7). -/
abbrev State.wf (s : State) : Prop :=
  s.sp.toNat ≤ 16 ∧
    (s.status ≠ .faulted → s.faultCause = .none ∧ s.faultInfo = 0x0000#16) ∧
    Memory.wf s.mem

/-- The fault record says a cause exactly when the core is faulted (10 R24, 60 R136). -/
abbrev State.faultRecorded (s : State) : Prop := s.faultCause ≠ .none ↔ s.status = .faulted

/-- No slot in use holds a value the core itself could not have pushed: `CALL` pushes at most 0x1000 (41 R82). -/
abbrev State.slotsInRange (s : State) : Prop := ∀ i : Fin 16, i.val < s.sp.toNat → (s.slot i).toNat ≤ 0x1000

/-- The pc is one the core itself can compute, and so is every saved one (10 R19). -/
abbrev State.pcInRange (s : State) : Prop := s.pc.toNat ≤ 0x1002 ∧ s.slotsInRange

/-! ## What two states have in common -/

/-- Every byte of memory reads the same. -/
abbrev SameMemory (s t : State) : Prop := ∀ addr : Nat, t.readMem addr = s.readMem addr

/-- Every register outside the list reads the same. -/
abbrev SameRegistersBut (written : List RegIdx) (s t : State) : Prop := ∀ j : RegIdx, j ∉ written → t.reg j = s.reg j

/-- The call stack is the same: every slot and the pointer. -/
abbrev SameCallStack (s t : State) : Prop := (∀ i : Fin 16, t.slot i = s.slot i) ∧ t.sp = s.sp

/-- The fault record is the same. -/
abbrev SameFaultRecord (s t : State) : Prop := t.faultCause = s.faultCause ∧ t.faultInfo = s.faultInfo

/-- Everything but the registers of the list is the same. -/
abbrev OnlyRegistersWritten (written : List RegIdx) (s t : State) : Prop :=
  SameRegistersBut written s t ∧ SameMemory s t ∧ SameCallStack s t ∧ SameFaultRecord s t ∧
    t.status = s.status ∧ t.pc = s.pc

/-- Everything but the program counter is the same. -/
abbrev OnlyPcWritten (s t : State) : Prop :=
  SameRegistersBut [] s t ∧ SameMemory s t ∧ SameCallStack s t ∧ SameFaultRecord s t ∧ t.status = s.status

/-- Everything but the program counter and the call stack is the same. -/
abbrev OnlyPcAndCallStackWritten (s t : State) : Prop :=
  SameRegistersBut [] s t ∧ SameMemory s t ∧ SameFaultRecord s t ∧ t.status = s.status

/-- A fatal condition entered from `s` (60 R137): the three writes, and nothing else. -/
abbrev FatalEntered (cause : FaultCause) (info : Word) (s t : State) : Prop :=
  t.status = .faulted ∧ t.faultCause = cause ∧ t.faultInfo = info ∧
    SameRegistersBut [] s t ∧ SameMemory s t ∧ SameCallStack s t ∧ t.pc = s.pc

/-- Two states that may differ in memory and in nothing else. -/
abbrev SameButMemory (s t : State) : Prop :=
  t.v = s.v ∧ t.stack = s.stack ∧ t.sp = s.sp ∧ t.pc = s.pc ∧ t.status = s.status ∧
    t.faultCause = s.faultCause ∧ t.faultInfo = s.faultInfo

/-! ## Outcomes -/

/-- The next state of an outcome, if it has one. -/
def nextState : Host.Outcome State Fault Refusal → Option State
  | .next s => some s
  | .fault _ => none
  | .refused _ => none

/-! ## What an instruction reads, writes and tests -/

/-- The registers an instruction reads (10 R13). -/
def readRegisters : Instr → List RegIdx
  | .halt => []
  | .cls => []
  | .ret => []
  | .jp _ => []
  | .call _ => []
  | .seI x _ => [x]
  | .sneI x _ => [x]
  | .seR x y => [x, y]
  | .sneR x y => [x, y]
  | .ldI _ _ => []
  | .addI x _ => [x]
  | .ldR _ y => [y]
  | .orR x y => [x, y]
  | .andR x y => [x, y]
  | .xorR x y => [x, y]
  | .addR x y => [x, y]
  | .subR x y => [x, y]

/-- The registers an instruction writes (10 R13). -/
def writtenRegisters : Instr → List RegIdx
  | .halt => []
  | .cls => []
  | .ret => []
  | .jp _ => []
  | .call _ => []
  | .seI _ _ => []
  | .sneI _ _ => []
  | .seR _ _ => []
  | .sneR _ _ => []
  | .ldI x _ => [x]
  | .addI x _ => [x]
  | .ldR x _ => [x]
  | .orR x _ => [x]
  | .andR x _ => [x]
  | .xorR x _ => [x]
  | .addR x _ => [x, 15]
  | .subR x _ => [x, 15]

/-- Operands with which every read and write of `readRegisters` and `writtenRegisters` can be seen in some state: two
different registers, and an addend other than 0. (`LD_R Vx, Vx` changes nothing, `SE_R Vx, Vx` depends on nothing.) -/
def operandsShow : Instr → Bool
  | .halt => true
  | .cls => true
  | .ret => true
  | .jp _ => true
  | .call _ => true
  | .seI _ _ => true
  | .sneI _ _ => true
  | .seR x y => x ≠ y
  | .sneR x y => x ≠ y
  | .ldI _ _ => true
  | .addI _ kk => kk ≠ 0x00#8
  | .ldR x y => x ≠ y
  | .orR x y => x ≠ y
  | .andR x y => x ≠ y
  | .xorR x y => x ≠ y
  | .addR x y => x ≠ y
  | .subR x y => x ≠ y

/-- The condition of a skip; `none` for an instruction that is no skip (42 R90 to R93). -/
def skipCondition (s : State) : Instr → Option Bool
  | .seI x kk => some (s.reg x = kk)
  | .sneI x kk => some (s.reg x ≠ kk)
  | .seR x y => some (s.reg x = s.reg y)
  | .sneR x y => some (s.reg x ≠ s.reg y)
  | .halt => none
  | .cls => none
  | .ret => none
  | .jp _ => none
  | .call _ => none
  | .ldI _ _ => none
  | .addI _ _ => none
  | .ldR _ _ => none
  | .orR _ _ => none
  | .andR _ _ => none
  | .xorR _ _ => none
  | .addR _ _ => none
  | .subR _ _ => none

/-! ## The fatal conditions, as conditions on the state before the step -/

/-- A fatal condition the fetch of this state raises, or the dispatch of its word: the four rows of 60 R136 as conditions
on the state before the step. -/
def State.fatalCause (s : State) : FaultCause :=
  match s.fetch with
  | none => .fetchOutOfBounds
  | some op =>
    match decodeWord op with
    | none => .unknownOpcode
    | some (.call _) => if s.sp = 16#5 then .stackOverflow else .none
    | some .ret => if s.sp = 0#5 then .stackUnderflow else .none
    | some _ => .none

/-- The detail recorded for it: the word for UnknownOpcode, the address `p` otherwise (60 R136). -/
def State.fatalInfo (s : State) : Word :=
  match s.fatalCause, s.fetch with
  | .unknownOpcode, some op => op
  | _, _ => s.pc

end Sys2Proof.Machine
end

