-- ==== Sys2Proof/Certificates/Slice0/Obligations.lean ====
section
/-! DEFINITION. The statements for the provers. Each docstring names the spec's rule or sentence it formalises; a clause
that rests on a decision the spec marks as its own, or on a choice of the model, says so. `p` is the pc before a step. -/

open Sys2Proof Sys2Proof.Machine

/-! ## Encoding -/

/-- 30 R55, R60: an instruction's own encoding decodes to it, with every operand at every value, as a word and as the
first two bytes of any byte string. -/
def Obligations.DecodeEncodeRoundTrip : Prop :=
  ∀ (i : Instr) (rest : List Byte),
    decodeWord (encode i) = some i ∧ decode (encodeBytes i ++ rest) = .ok (i, rest)

/-- 30 R55, R60: a word that decodes has no bit the instruction does not determine, so two words never decode to the same
instruction. -/
def Obligations.EncodeDecodeRoundTrip : Prop :=
  ∀ (w : Word) (i : Instr), decodeWord w = some i → encode i = w

/-- 30 R55: the map has 17 rows, each with a mnemonic of its own, and a word is the instruction of a row exactly when
masking it gives the row's pattern. A word no row selects is no instruction. -/
def Obligations.OpcodeMapSelectsInstruction : Prop :=
  opcodeTable.length = 17 ∧ (opcodeTable.map OpRow.mnemonic).Nodup ∧
  (∀ w : Word, ∀ r ∈ opcodeTable,
    w &&& r.mask = r.pattern ↔ ∃ i : Instr, decodeWord w = some i ∧ i.mnemonic = r.mnemonic) ∧
  ∀ w : Word, (∀ r ∈ opcodeTable, w &&& r.mask ≠ r.pattern) → decodeWord w = none

/-- 30 R56 (the spec marks it as derived by counting): no word is selected by two rows of the opcode map. -/
def Obligations.OpcodeRowsDisjoint : Prop :=
  ∀ w : Word, ∀ r ∈ opcodeTable, ∀ q ∈ opcodeTable, r.selects w = true → q.selects w = true → r = q

/-- 30 R51: the six fields of an opcode as unsigned numbers. -/
def Obligations.FieldsOfOpcode : Prop :=
  ∀ w : Word,
    (fieldClass w).toNat = w.toNat / 4096 ∧
    (fieldX w).val = w.toNat / 256 % 16 ∧
    (fieldY w).val = w.toNat / 16 % 16 ∧
    (fieldD w).toNat = w.toNat % 16 ∧
    (fieldNnn w).toNat = w.toNat % 4096 ∧
    (fieldKk w).toNat = w.toNat % 256

/-- 30 R57: which words are undefined, class by class, and how many there are; and fetching one is the fatal condition
UnknownOpcode with the word itself as FAULT_INFO. (That the pc then stands at `p + 2` is the spec's decision D7.) -/
def Obligations.UndefinedEncodingsAreFatal : Prop :=
  (∀ w : Word, decodeWord w = none ↔
    (w.toNat / 4096 = 0 ∧ w ≠ 0x0000#16 ∧ w ≠ 0x00E0#16 ∧ w ≠ 0x00EE#16) ∨
    (w.toNat / 4096 = 5 ∧ 1 ≤ w.toNat % 16) ∨
    (w.toNat / 4096 = 8 ∧ 6 ≤ w.toNat % 16) ∨
    (w.toNat / 4096 = 9 ∧ 1 ≤ w.toNat % 16) ∨
    10 ≤ w.toNat / 4096) ∧
  (List.range 65536).countP (fun n => (decodeWord (BitVec.ofNat 16 n)).isNone) = 38909 ∧
  ∀ (s : State) (w : Word), s.status = .running → s.fetch = some w → decodeWord w = none →
    ∃ t, step s = .next t ∧ FatalEntered .unknownOpcode w { s with pc := s.pc + 2#16 } t

/-- Words written out from the patterns of 30 R55 decode to the instructions they stand for, one of each form and family. -/
def Obligations.SampleWordsDecode : Prop :=
  decodeWord 0b0000000011101110#16 = some .ret ∧
  decodeWord 0b0001001000110100#16 = some (.jp 0x234#12) ∧
  decodeWord 0b0011001000101010#16 = some (.seI 2 0x2A#8) ∧
  decodeWord 0b1001000000010000#16 = some (.sneR 0 1) ∧
  decodeWord 0b0110101001010101#16 = some (.ldI 10 0x55#8) ∧
  decodeWord 0b1000000000010100#16 = some (.addR 0 1) ∧
  decodeWord 0b1000000000010110#16 = none

/-- 30 R61, R62 (the notation is the spec's own, decision D16): a source line assembles exactly when it is well formed,
and the source line of an instruction assembles to the instruction's bytes. -/
def Obligations.AssemblerMatchesEncoder : Prop :=
  (∀ line : SourceLine, (assemble line).isSome = line.wellFormed) ∧
  ∀ i : Instr, assemble i.source = some (encodeBytes i)

/-- 30 R61 (the notation is the spec's own, decision D16): the text of an instruction's line reads back as that line, with
every operand at every value. The form of the text is the model's choice (log entry 23): every literal, a byte too, as `0x`
and four upper-case hexadecimal digits, one blank before each operand. -/
def Obligations.WrittenLineReadsBack : Prop :=
  ∀ i : Instr, readLine (instrText i) = some ⟨none, some i.source⟩

/-! ## The cycle -/

/-- 20 R33: the opcode fetched at `p` is `MEM[p]` in the high byte and `MEM[p+1]` in the low byte. -/
def Obligations.FetchIsBigEndian : Prop :=
  ∀ s : State, s.pc.toNat ≤ 0x0FFE →
    ∃ hi lo op, s.readMem s.pc.toNat = some hi ∧ s.readMem (s.pc.toNat + 1) = some lo ∧
      s.fetch = some op ∧ op.toNat = hi.toNat * 256 + lo.toNat

/-- 40 R66, R68, R70: a step of a running core whose two bytes at the pc decode to an instruction is that instruction's
handler, run once on the state whose pc is advanced by 2. -/
def Obligations.StepRunsDecodedInstruction : Prop :=
  ∀ (s : State) (hi lo : Byte) (i : Instr), s.status = .running →
    s.readMem s.pc.toNat = some hi → s.readMem (s.pc.toNat + 1) = some lo → decode [hi, lo] = .ok (i, []) →
    step s = exec i { s with pc := s.pc + 2#16 }

/-- 20 R36, 60 R141 (the spec's decisions D6, D7, D8): a running core whose pc is above 0x0FFE enters FetchOutOfBounds with
that pc as FAULT_INFO, and nothing else changes, the pc included. -/
def Obligations.FetchOutOfBoundsIsFatal : Prop :=
  ∀ s : State, s.status = .running → 0x0FFE < s.pc.toNat →
    ∃ t, step s = .next t ∧ FatalEntered .fetchOutOfBounds s.pc s t

/-- 40 R65, in the model's form (log entry 3): a core that is not running stays as it is. -/
def Obligations.StoppedCoreChangesNothing : Prop :=
  ∀ s : State, s.status ≠ .running → step s = .next s

/-- 70 R157: a step of a running core ends the run in success exactly when the word fetched is HALT, and then only STATUS
and the pc (by 2) have changed; it ends the run in failure exactly when a fatal condition holds, with its record; it never
makes the core idle. -/
def Obligations.RunEndsByHaltOrFatal : Prop :=
  ∀ s t : State, s.status = .running → step s = .next t →
    (t.status = .halted ↔ s.fetch = some 0x0000#16) ∧
    (t.status = .halted → t = { s with pc := s.pc + 2#16, status := .halted }) ∧
    (t.status = .faulted ↔ s.fatalCause ≠ .none) ∧
    (t.status = .faulted → t.faultCause = s.fatalCause ∧ t.faultInfo = s.fatalInfo) ∧
    t.status ≠ .idle

/-! ## Control flow (41) -/

/-- 41 R80: the handler of HALT writes only STATUS, and the cycle that decodes 0x0000 leaves the pc at `p + 2`. -/
def Obligations.HaltStopsRun : Prop :=
  decodeWord 0x0000#16 = some .halt ∧
  (∀ s : State, ∃ t, exec .halt s = .next t ∧ t.status = .halted ∧ SameRegistersBut [] s t ∧ SameMemory s t ∧
    SameCallStack s t ∧ SameFaultRecord s t ∧ t.pc = s.pc) ∧
  ∀ s : State, s.status = .running → s.fetch = some 0x0000#16 →
    ∃ t, step s = .next t ∧ t.status = .halted ∧ t.pc = s.pc + 2#16 ∧ SameRegistersBut [] s t ∧ SameMemory s t ∧
      SameCallStack s t ∧ SameFaultRecord s t

/-- 41 R81 (recognised and inert: the spec's decision D17): 0x00E0 is CLS, its handler writes nothing, and its cycle
changes the pc alone. -/
def Obligations.ClsIsInert : Prop :=
  decodeWord 0x00E0#16 = some .cls ∧
  (∀ s : State, ∃ t, exec .cls s = .next t ∧ OnlyRegistersWritten [] s t) ∧
  ∀ s : State, s.status = .running → s.fetch = some 0x00E0#16 →
    ∃ t, step s = .next t ∧ t.pc = s.pc + 2#16 ∧ OnlyPcWritten s t

/-- 41 R83: the pc becomes `nnn`, its upper four bits zero; nothing else changes. -/
def Obligations.JumpSetsPc : Prop :=
  ∀ (nnn : Addr) (s : State),
    decodeWord (0x1#4 ++ nnn) = some (.jp nnn) ∧
    ∃ t, exec (.jp nnn) s = .next t ∧ t.pc.toNat = nnn.toNat ∧ OnlyPcWritten s t

/-- 41 R84 (which slot is written is the spec's decision D3): with a slot free, CALL saves the advanced pc in slot SP,
counts it, and jumps. -/
def Obligations.CallPushesAndJumps : Prop :=
  ∀ (nnn : Addr) (s : State), s.sp.toNat < 16 →
    decodeWord (0x2#4 ++ nnn) = some (.call nnn) ∧
    ∃ t, exec (.call nnn) s = .next t ∧ (∀ k : Fin 16, t.slot k = if k.val = s.sp.toNat then s.pc else s.slot k) ∧
      t.sp.toNat = s.sp.toNat + 1 ∧ t.pc.toNat = nnn.toNat ∧ OnlyPcAndCallStackWritten s t

/-- 60 R138 (the record and the pc left are the spec's decisions D7, D8): CALL with SP = 16 enters StackOverflow with `p`
as FAULT_INFO and writes nothing else; the pc stays `p + 2`. -/
def Obligations.CallOnFullStackIsFatal : Prop :=
  (∀ (nnn : Addr) (s : State), s.sp.toNat = 16 →
    ∃ t, exec (.call nnn) s = .next t ∧ FatalEntered .stackOverflow (s.pc - 2#16) s t) ∧
  ∀ (nnn : Addr) (s : State), s.status = .running → s.fetch = some (0x2#4 ++ nnn) → s.sp.toNat = 16 →
    ∃ t, step s = .next t ∧ FatalEntered .stackOverflow s.pc { s with pc := s.pc + 2#16 } t

/-- 41 R82 (which slot is read, and that it keeps its value, is the spec's decision D3): with a slot in use, RET takes the
last one off and its whole value becomes the pc. -/
def Obligations.ReturnPopsPc : Prop :=
  decodeWord 0x00EE#16 = some .ret ∧
  ∀ s : State, 1 ≤ s.sp.toNat → s.sp.toNat ≤ 16 →
    ∃ t, exec .ret s = .next t ∧ t.sp.toNat + 1 = s.sp.toNat ∧ (∀ k : Fin 16, k.val = t.sp.toNat → t.pc = s.slot k) ∧
      (∀ k : Fin 16, t.slot k = s.slot k) ∧ OnlyPcAndCallStackWritten s t

/-- 60 R139 (the record and the pc left are the spec's decisions D7, D8): RET with SP = 0 enters StackUnderflow with `p`
as FAULT_INFO and writes nothing else; SP stays 0 and the pc stays `p + 2`. -/
def Obligations.ReturnOnEmptyStackIsFatal : Prop :=
  (∀ s : State, s.sp.toNat = 0 → ∃ t, exec .ret s = .next t ∧ FatalEntered .stackUnderflow (s.pc - 2#16) s t) ∧
  ∀ s : State, s.status = .running → s.fetch = some 0x00EE#16 → s.sp.toNat = 0 →
    ∃ t, step s = .next t ∧ FatalEntered .stackUnderflow s.pc { s with pc := s.pc + 2#16 } t

/-- The model's choice (log entry 4) for a state the spec says is never produced (10 R21): with SP above 16, CALL and RET
stop, since the slot they name does not exist. -/
def Obligations.AbsentSlotStopsCallAndReturn : Prop :=
  ∀ (nnn : Addr) (s : State), 16 < s.sp.toNat →
    exec (.call nnn) s = .fault .stackSlotAbsent ∧ exec .ret s = .fault .stackSlotAbsent

/-- 41 R85 (the spec marks the precise form as derived): if a CALL at `p` with a slot free is followed, at any later
moment with the same SP and that slot untouched, by a RET, then after the RET the pc is `p + 2` and SP is what it was
before the CALL, and the slot still holds `p + 2`. -/
def Obligations.CallReturnRestoresPcAndSp : Prop :=
  ∀ (s t r : State) (nnn : Addr) (k : Fin 16), s.status = .running → s.fetch = some (0x2#4 ++ nnn) →
    k.val = s.sp.toNat → step s = .next t →
    r.status = .running → r.fetch = some 0x00EE#16 → r.sp = t.sp → r.slot k = t.slot k →
    ∃ u, step r = .next u ∧ u.pc = s.pc + 2#16 ∧ u.sp = s.sp ∧ u.slot k = s.pc + 2#16

/-! ## Skips (42) -/

/-- 42 R90. -/
def Obligations.SkipIfEqualImmediate : Prop :=
  ∀ (x : RegIdx) (kk : Byte) (s : State),
    decodeWord (0x3#4 ++ BitVec.ofNat 4 x.val ++ kk) = some (.seI x kk) ∧
    ∃ t, exec (.seI x kk) s = .next t ∧ t.pc = (if s.reg x = kk then s.pc + 2#16 else s.pc) ∧ OnlyPcWritten s t

/-- 42 R91: exactly the complement of SE_I. -/
def Obligations.SkipIfNotEqualImmediate : Prop :=
  ∀ (x : RegIdx) (kk : Byte) (s : State),
    decodeWord (0x4#4 ++ BitVec.ofNat 4 x.val ++ kk) = some (.sneI x kk) ∧
    ∃ t, exec (.sneI x kk) s = .next t ∧ t.pc = (if s.reg x ≠ kk then s.pc + 2#16 else s.pc) ∧ OnlyPcWritten s t ∧
      ∀ u, exec (.seI x kk) s = .next u → (u.pc = s.pc + 2#16 ↔ t.pc ≠ s.pc + 2#16)

/-- 42 R92; with `x = y` it always skips. -/
def Obligations.SkipIfRegistersEqual : Prop :=
  ∀ (x y : RegIdx) (s : State),
    decodeWord (0x5#4 ++ BitVec.ofNat 4 x.val ++ BitVec.ofNat 4 y.val ++ 0x0#4) = some (.seR x y) ∧
    ∃ t, exec (.seR x y) s = .next t ∧ t.pc = (if s.reg x = s.reg y then s.pc + 2#16 else s.pc) ∧ OnlyPcWritten s t ∧
      (x = y → t.pc = s.pc + 2#16)

/-- 42 R93; with `x = y` it never skips. -/
def Obligations.SkipIfRegistersNotEqual : Prop :=
  ∀ (x y : RegIdx) (s : State),
    decodeWord (0x9#4 ++ BitVec.ofNat 4 x.val ++ BitVec.ofNat 4 y.val ++ 0x0#4) = some (.sneR x y) ∧
    ∃ t, exec (.sneR x y) s = .next t ∧ t.pc = (if s.reg x ≠ s.reg y then s.pc + 2#16 else s.pc) ∧ OnlyPcWritten s t ∧
      (x = y → t.pc = s.pc)

/-- 42 R94 (the spec marks its consequences as derived): a step that runs a skip advances the pc by 4 in total when the
condition holds and by 2 when it does not, without wrapping, and changes nothing else: whatever the bytes skipped are. -/
def Obligations.SkipAdvancesByFourOrTwo : Prop :=
  ∀ (s : State) (op : Word) (i : Instr) (c : Bool), s.status = .running → s.fetch = some op → decodeWord op = some i →
    skipCondition s i = some c →
    ∃ t, step s = .next t ∧ t.pc.toNat = s.pc.toNat + (if c then 4 else 2) ∧ OnlyPcWritten s t

/-! ## Register-immediate (43) -/

/-- 43 R95: every `x`, 15 included. -/
def Obligations.SetImmediate : Prop :=
  ∀ (x : RegIdx) (kk : Byte) (s : State),
    decodeWord (0x6#4 ++ BitVec.ofNat 4 x.val ++ kk) = some (.ldI x kk) ∧
    ∃ t, exec (.ldI x kk) s = .next t ∧ t.reg x = kk ∧ OnlyRegistersWritten [x] s t

/-- 43 R96: wraps modulo 256 and writes no flag (with `x = 15` the sum itself goes to register 15). -/
def Obligations.AddImmediateWrapsWithoutFlag : Prop :=
  ∀ (x : RegIdx) (kk : Byte) (s : State),
    decodeWord (0x7#4 ++ BitVec.ofNat 4 x.val ++ kk) = some (.addI x kk) ∧
    ∃ t, exec (.addI x kk) s = .next t ∧ (t.reg x).toNat = ((s.reg x).toNat + kk.toNat) % 256 ∧
      OnlyRegistersWritten [x] s t

/-! ## Register-register (44) -/

/-- 44 R100. -/
def Obligations.CopyRegister : Prop :=
  ∀ (x y : RegIdx) (s : State),
    decodeWord (0x8#4 ++ BitVec.ofNat 4 x.val ++ BitVec.ofNat 4 y.val ++ 0x0#4) = some (.ldR x y) ∧
    ∃ t, exec (.ldR x y) s = .next t ∧ t.reg x = s.reg y ∧ t.reg y = s.reg y ∧ OnlyRegistersWritten [x] s t

/-- 44 R101: bit by bit, no flag. -/
def Obligations.OrIsBitwiseWithoutFlag : Prop :=
  ∀ (x y : RegIdx) (s : State),
    decodeWord (0x8#4 ++ BitVec.ofNat 4 x.val ++ BitVec.ofNat 4 y.val ++ 0x1#4) = some (.orR x y) ∧
    ∃ t, exec (.orR x y) s = .next t ∧
      (∀ k : Nat, (t.reg x).getLsbD k = ((s.reg x).getLsbD k || (s.reg y).getLsbD k)) ∧ OnlyRegistersWritten [x] s t

/-- 44 R102: bit by bit, no flag. -/
def Obligations.AndIsBitwiseWithoutFlag : Prop :=
  ∀ (x y : RegIdx) (s : State),
    decodeWord (0x8#4 ++ BitVec.ofNat 4 x.val ++ BitVec.ofNat 4 y.val ++ 0x2#4) = some (.andR x y) ∧
    ∃ t, exec (.andR x y) s = .next t ∧
      (∀ k : Nat, (t.reg x).getLsbD k = ((s.reg x).getLsbD k && (s.reg y).getLsbD k)) ∧ OnlyRegistersWritten [x] s t

/-- 44 R103: bit by bit, no flag; with `x = y` the register is cleared. -/
def Obligations.XorIsBitwiseWithoutFlag : Prop :=
  ∀ (x y : RegIdx) (s : State),
    decodeWord (0x8#4 ++ BitVec.ofNat 4 x.val ++ BitVec.ofNat 4 y.val ++ 0x3#4) = some (.xorR x y) ∧
    ∃ t, exec (.xorR x y) s = .next t ∧
      (∀ k : Nat, (t.reg x).getLsbD k = ((s.reg x).getLsbD k ^^ (s.reg y).getLsbD k)) ∧
      (x = y → t.reg x = 0x00#8) ∧ OnlyRegistersWritten [x] s t

/-- 44 R104, R106: the sum modulo 256 goes to V[x] and the unsigned carry to V[15], both operands read first. With
`x = 15` the flag is what remains: the spec's decision D4. -/
def Obligations.AddRegistersWithCarryOut : Prop :=
  ∀ (x y : RegIdx) (s : State),
    decodeWord (0x8#4 ++ BitVec.ofNat 4 x.val ++ BitVec.ofNat 4 y.val ++ 0x4#4) = some (.addR x y) ∧
    ∃ t, exec (.addR x y) s = .next t ∧
      t.reg 15 = (if 255 < (s.reg x).toNat + (s.reg y).toNat then 0x01#8 else 0x00#8) ∧
      (x ≠ 15 → (t.reg x).toNat = ((s.reg x).toNat + (s.reg y).toNat) % 256) ∧ OnlyRegistersWritten [x, 15] s t

/-- 44 R105, R106: the difference modulo 256 goes to V[x] and the no-borrow flag to V[15], both operands read first. With
`x = 15` the flag is what remains: the spec's decision D4. -/
def Obligations.SubtractRegistersWithNoBorrow : Prop :=
  ∀ (x y : RegIdx) (s : State),
    decodeWord (0x8#4 ++ BitVec.ofNat 4 x.val ++ BitVec.ofNat 4 y.val ++ 0x5#4) = some (.subR x y) ∧
    ∃ t, exec (.subR x y) s = .next t ∧
      t.reg 15 = (if (s.reg x).toNat < (s.reg y).toNat then 0x00#8 else 0x01#8) ∧
      (x ≠ 15 → (t.reg x).toNat = ((s.reg x).toNat + 256 - (s.reg y).toNat) % 256) ∧ OnlyRegistersWritten [x, 15] s t

/-- 44 R107: read as two's complement, ADD_I, ADD_R and SUB_R compute the right results modulo 256. (`x = 15` is left out
for ADD_R and SUB_R because the flag overwrites the result there; the two statements above say what it holds.) -/
def Obligations.ArithmeticIsRightInTwosComplement : Prop :=
  ∀ (x y : RegIdx) (kk : Byte) (s : State),
    (∃ t, exec (.addI x kk) s = .next t ∧ (t.reg x).toInt = Int.bmod ((s.reg x).toInt + kk.toInt) 256) ∧
    (x ≠ 15 → ∃ t, exec (.addR x y) s = .next t ∧
      (t.reg x).toInt = Int.bmod ((s.reg x).toInt + (s.reg y).toInt) 256) ∧
    (x ≠ 15 → ∃ t, exec (.subR x y) s = .next t ∧
      (t.reg x).toInt = Int.bmod ((s.reg x).toInt - (s.reg y).toInt) 256)

/-- 44 R107: SUB_R followed by a test of V[15] is an unsigned less-than: SE_I VF, 0 skips exactly when V[x] was below
V[y]. -/
def Obligations.SubtractThenTestIsLessThan : Prop :=
  ∀ (x y : RegIdx) (s : State),
    ∃ t u, exec (.subR x y) s = .next t ∧ exec (.seI 15 0x00#8) t = .next u ∧
      (u.pc = s.pc + 2#16 ↔ (s.reg x).toNat < (s.reg y).toNat)

/-! ## What no instruction does -/

/-- 10 R13: an instruction leaves every register it is not said to write as it was; what it does depends, of the
registers, on those it is said to read alone: on any other register file that agrees on them it writes the same values and
leaves the same pc, call stack, memory, status and fault record. And each write and each read it is said to make shows in
some state, where its operands let it (two different registers, an addend other than 0): a register it writes changes; a
register it reads, set to another value, changes the pc it leaves or a value it writes. -/
def Obligations.RegistersReadAndWritten : Prop :=
  (∀ (i : Instr) (s t : State), exec i s = .next t →
    SameRegistersBut (writtenRegisters i) s t ∧
    ∀ v' : Vector Byte 16, (∀ j ∈ readRegisters i, v'[j] = s.reg j) →
      ∃ t', exec i { s with v := v' } = .next t' ∧ (∀ j ∈ writtenRegisters i, t'.reg j = t.reg j) ∧
        t' = { t with v := t'.v }) ∧
  ∀ i : Instr, operandsShow i = true →
    (∀ j ∈ writtenRegisters i, ∃ s t : State, exec i s = .next t ∧ t.reg j ≠ s.reg j) ∧
    ∀ j ∈ readRegisters i, ∃ (s t u : State) (b : Byte), exec i s = .next t ∧ exec i (s.setReg j b) = .next u ∧
      (t.pc ≠ u.pc ∨ ∃ k ∈ writtenRegisters i, t.reg k ≠ u.reg k)

/-- 10 R14 (the spec marks it as derived): register 15 changes only by an instruction that names it as its destination, or
by ADD_R and SUB_R, which leave it 0x00 or 0x01. -/
def Obligations.FlagRegisterWrites : Prop :=
  ∀ (i : Instr) (s t : State), exec i s = .next t →
    ((i.mnemonic ≠ .addR ∧ i.mnemonic ≠ .subR ∧ (15 : RegIdx) ∉ writtenRegisters i) → t.reg 15 = s.reg 15) ∧
    ((i.mnemonic = .addR ∨ i.mnemonic = .subR) → t.reg 15 = 0x00#8 ∨ t.reg 15 = 0x01#8)

/-- 10 R20, R21 (the slot order is the spec's decision D3): only CALL writes a slot, and only slot SP; only CALL and RET
move SP, by one. -/
def Obligations.CallStackWrites : Prop :=
  ∀ (i : Instr) (s t : State), exec i s = .next t →
    (i.mnemonic ≠ .call → ∀ k : Fin 16, t.slot k = s.slot k) ∧
    (∀ k : Fin 16, k.val ≠ s.sp.toNat → t.slot k = s.slot k) ∧
    (i.mnemonic ≠ .call → i.mnemonic ≠ .ret → t.sp = s.sp) ∧
    (i.mnemonic = .call → t.sp = s.sp ∨ t.sp.toNat = s.sp.toNat + 1) ∧
    (i.mnemonic = .ret → t.sp = s.sp ∨ t.sp.toNat + 1 = s.sp.toNat)

/-- 20 R40: the core never writes memory, so after any number of steps every byte reads as at launch. -/
def Obligations.RunNeverWritesMemory : Prop :=
  ∀ (k : Nat) (s t : State), runSteps k s = .next t → t.mem = s.mem ∧ SameMemory s t

/-- 20 R37: the one access the core makes is the two byte reads at `p` and `p + 1`: of two cores that differ in memory
alone and agree on those two bytes, each step of the one is matched by the same step of the other, whatever the rest of
memory holds, and each keeps its own memory. -/
def Obligations.OnlyFetchedBytesMatter : Prop :=
  ∀ s t s' : State, SameButMemory s s' →
    s'.readMem s.pc.toNat = s.readMem s.pc.toNat → s'.readMem (s.pc.toNat + 1) = s.readMem (s.pc.toNat + 1) →
    step s = .next t → ∃ t', step s' = .next t' ∧ SameButMemory t t' ∧ t.mem = s.mem ∧ t'.mem = s'.mem

/-- 40 R71: a handler never writes memory; it returns normally, with the fault record untouched and STATUS too unless it
is HALT, or it signals a fatal error, and then it is RET or CALL and makes none of its own writes. -/
def Obligations.HandlersWriteOrFail : Prop :=
  ∀ (i : Instr) (s t : State), exec i s = .next t →
    SameMemory s t ∧
    ((SameFaultRecord s t ∧ (t.status = s.status ∨ (i = .halt ∧ t.status = .halted))) ∨
     (i = .ret ∧ FatalEntered .stackUnderflow t.faultInfo s t) ∨
     (i.mnemonic = .call ∧ FatalEntered .stackOverflow t.faultInfo s t))

/-! ## Invariants and whole histories -/

/-- 10 R24, R28 (the spec's decision D15), with the model's canonical form of memory (log entry 7) and the model's step of
a core that is not running (log entry 3): every step of the core keeps well-formedness, and with it keeps that a cause is
recorded exactly when the core is faulted. -/
def Obligations.StepKeepsWellFormed : Prop :=
  ∀ s t : State, s.wf → step s = .next t → t.wf ∧ (s.faultRecorded → t.faultRecorded)

/-- 10 R28, R29 (the spec's decisions D9, D10, D15), with the model's canonical form of memory (log entry 7): every reset
state is well formed, is not faulted and records no fault. -/
def Obligations.ResetIsWellFormed : Prop :=
  ∀ startPc : Word, (State.resetAt startPc).wf ∧ (State.resetAt startPc).faultRecorded ∧
    (State.resetAt startPc).status ≠ .faulted ∧ (State.resetAt startPc).faultCause = .none ∧
    (State.resetAt startPc).faultInfo = 0x0000#16

/-- 10 R28, 50 R127 (the spec's decisions D12, D15), with the model's canonical form of memory (log entry 7): the host port
cannot produce a state that is not well formed. -/
def Obligations.HostPortKeepsWellFormed : Prop :=
  ∀ (startPc : Word) (op : HostOp) (s : State), s.wf →
    ((hostPort startPc op s).stateFrom s).wf ∧ (s.faultRecorded → ((hostPort startPc op s).stateFrom s).faultRecorded)

/-- 10 R24, R28, 60 R136 (the spec's decisions D12, D15): in every well-formed state that records a cause exactly when it is
faulted, every move of the core or of the host has a next state with the same two properties; the reset state has them; so
from reset, whatever the host and the core do in whatever order, there is always such a next state. The model's choices:
the step of a core that is not running (log entry 3), the canonical form of memory (log entry 7), and that host moves land
between steps (log entry 26). -/
def Obligations.EveryHistoryIsWellFormed : Prop :=
  ∀ startPc : Word,
    (∀ (m : Move) (s : State), s.wf → s.faultRecorded →
      ∃ t, m.apply startPc s = .next t ∧ t.wf ∧ t.faultRecorded) ∧
    ((State.resetAt startPc).wf ∧ (State.resetAt startPc).faultRecorded) ∧
    ∀ moves : List Move, ∃ t, runMoves startPc moves (State.resetAt startPc) = .next t ∧ t.wf ∧ t.faultRecorded

/-- 70 R160 (the spec marks it as derived, and only of a running core): a well-formed core is never stuck: a step has a next
state, and a run of any number of steps too. That the step of a core that is not running has one is the model's choice (log
entry 3), and so is the canonical form of memory in well-formedness (log entry 7). -/
def Obligations.WellFormedCoreNeverStuck : Prop :=
  ∀ (k : Nat) (s : State), s.wf → ∃ t, runSteps k s = .next t ∧ t.wf

/-- 10 R19 (the spec marks it as derived): as long as no slot in use holds more than 0x1000, which is what CALL pushes at
most, the pc the core computes is at most 0x1002, no slot in use ever holds more, and no advance carries out of 16 bits. (The
step of a core that is not running is the model's, log entry 3.) -/
def Obligations.PcNeverWraps : Prop :=
  ∀ s t : State, s.pcInRange → step s = .next t →
    t.pcInRange ∧ ∀ op, s.fetch = some op → (s.pc + 2#16).toNat = s.pc.toNat + 2 ∧ s.pc.toNat + 2 ≤ 0x1000

/-- 60 R144, 50 R127, R128 (leaving a fault is the spec's decision D13): a faulted core stays exactly as it is through
every history that holds no reset, and a reset gives the reset state. That a step of a faulted core answers the same state,
and that host moves land between steps, are the model's (log entries 3 and 26). -/
def Obligations.FaultedUntilReset : Prop :=
  ∀ (startPc : Word) (moves : List Move) (s : State), s.status = .faulted →
    (Move.host .reset ∉ moves → runMoves startPc moves s = .next s) ∧
    (Move.host .reset).apply startPc s = .next (State.resetAt startPc)

/-- 50 R110 to R119 (the blocks are the spec's decision D18): the composition of the eight sub-blocks under the control
table does, in every state, exactly what the step of the instruction rules does. The model's choices: a second step function
written from the blocks (log entry 22), the step of a core that is not running (log entry 3), the stop of CALL and RET with
SP above 16 (log entry 4). -/
def Obligations.BlocksRefineStep : Prop :=
  ∀ s : State, blockStep s = step s

/-! ## Reset and the host port -/

/-- 10 R29, 70 R155 (STATUS, the fault record and the slots by the spec's decisions D8, D9, D10; `START_PC` any value,
D11): the host's reset, in any state, gives every element its reset value. -/
def Obligations.ResetValues : Prop :=
  ∀ (startPc : Word) (s : State), ∃ t, hostPort startPc .reset s = .accepted t ∧
    (∀ i : RegIdx, t.reg i = 0x00#8) ∧ (∀ a : Nat, a < 4096 → t.readMem a = some 0x00#8) ∧ t.sp = 0#5 ∧
    (∀ k : Fin 16, t.slot k = 0x0000#16) ∧ t.pc = startPc ∧ t.status = .idle ∧ t.faultCause = .none ∧
    t.faultInfo = 0x0000#16

/-- 50 R127 (the spec's decisions D12, D19): while the core runs, and while it is faulted, the port refuses everything but
reset; while it runs it refuses every read. -/
def Obligations.HostRefusedWhileRunningOrFaulted : Prop :=
  ∀ (startPc : Word) (op : HostOp) (s : State),
    ((s.status = .running ∨ s.status = .faulted) → op ≠ .reset → hostPort startPc op s = .refused) ∧
    (s.status = .running → ∀ q : ReadOp, hostRead q s = none)

/-- 50 R126, R128, 20 R41 (the spec's decisions D12, D13; the premise holds the model's canonical form of memory, log
entry 7): while the core is idle or halted, each write of the port does
what its row says and nothing else, is refused out of range, and `run` changes STATUS alone. -/
def Obligations.HostWritesWhileStopped : Prop :=
  ∀ (startPc : Word) (s : State), s.wf → (s.status = .idle ∨ s.status = .halted) →
    (∀ (a : Nat) (b : Byte), a < 4096 → ∃ t, hostPort startPc (.writeMem a b) s = .accepted t ∧ t.readMem a = some b ∧
      (∀ c : Nat, c ≠ a → t.readMem c = s.readMem c) ∧ SameButMemory s t) ∧
    (∀ (a : Nat) (b : Byte), 4096 ≤ a → hostPort startPc (.writeMem a b) s = .refused) ∧
    (∀ (i : RegIdx) (b : Byte), ∃ t, hostPort startPc (.writeReg i b) s = .accepted t ∧ t.reg i = b ∧
      OnlyRegistersWritten [i] s t) ∧
    (∀ w : Word, ∃ t, hostPort startPc (.writePc w) s = .accepted t ∧ t.pc = w ∧ OnlyPcWritten s t) ∧
    (∀ (k : Fin 16) (w : Word), ∃ t, hostPort startPc (.writeStack k w) s = .accepted t ∧
      (∀ j : Fin 16, t.slot j = if j = k then w else s.slot j) ∧ t.sp = s.sp ∧ t.pc = s.pc ∧
      OnlyPcAndCallStackWritten s t) ∧
    (∀ n : Nat, n ≤ 16 → ∃ t, hostPort startPc (.writeSp n) s = .accepted t ∧ t.sp.toNat = n ∧
      (∀ j : Fin 16, t.slot j = s.slot j) ∧ t.pc = s.pc ∧ OnlyPcAndCallStackWritten s t) ∧
    (∀ n : Nat, 16 < n → hostPort startPc (.writeSp n) s = .refused) ∧
    ∃ t, hostPort startPc .run s = .accepted t ∧ t.status = .running ∧ SameRegistersBut [] s t ∧ SameMemory s t ∧
      SameCallStack s t ∧ SameFaultRecord s t ∧ t.pc = s.pc

/-- 50 R126, R129 (the port is the spec's decision D12): of a core that is not running the host reads every element. That a
read of a cell outside 0 to 4095 is refused is the model's choice (log entry 29). -/
def Obligations.HostReadsWhileStopped : Prop :=
  ∀ s : State, s.status ≠ .running →
    (∀ i : RegIdx, hostRead (.reg i) s = some (.byte (s.reg i))) ∧
    (∀ (a : Nat) (b : Byte), s.readMem a = some b → hostRead (.mem a) s = some (.byte b)) ∧
    (∀ a : Nat, 4096 ≤ a → hostRead (.mem a) s = none) ∧
    (∀ k : Fin 16, hostRead (.slot k) s = some (.word (s.slot k))) ∧
    hostRead .sp s = some (.count s.sp) ∧ hostRead .pc s = some (.word s.pc) ∧
    hostRead .status s = some (.status s.status) ∧ hostRead .faultCause s = some (.cause s.faultCause) ∧
    hostRead .faultInfo s = some (.word s.faultInfo)

/-- 20 R38, with 20 R41 for the write of an address below 4096: every cell is plain storage: a write succeeds, a read after
it of the same cell returns the byte written, and a read of any other cell what it returned before. The canonical form, as
the premise and as what the write keeps, is the model's (log entry 7). -/
def Obligations.MemoryIsPlainStorage : Prop :=
  ∀ (m : Memory) (a : Nat) (b : Byte), Memory.wf m → a < 4096 →
    ∃ m', Memory.write m a b = some m' ∧ Memory.read m' a = some b ∧
      (∀ c : Nat, c ≠ a → Memory.read m' c = Memory.read m c) ∧ Memory.wf m'

/-- The model's form of memory (log entry 7): two memories in canonical form that read the same everywhere are equal. -/
def Obligations.MemoriesReadingAlikeAreEqual : Prop :=
  ∀ m m' : Memory, Memory.wf m → Memory.wf m' → (∀ a : Nat, Memory.read m a = Memory.read m' a) → m = m'

/-- How a program comes to run (70 R156, 50 R128; log entry 2): after a reset at a start address that allows a fetch, the
host's two byte writes and its `run` give exactly the state in which a word is placed for the next fetch. -/
def Obligations.PlacedWordIsHostLoad : Prop :=
  ∀ (startPc : Word) (w : Nat), startPc.toNat ≤ 0x0FFE → w < 65536 →
    runMoves startPc
      [.host (.writeMem startPc.toNat (highByte (BitVec.ofNat 16 w))),
        .host (.writeMem (startPc.toNat + 1) (lowByte (BitVec.ofNat 16 w))), .host .run]
      (State.resetAt startPc) = .next ((State.resetAt startPc).withFetchWord 16 w)

/-- The model's placing of a word (log entries 2, 6 and 7): in every state with a canonical memory, the word placed is the
word the next step fetches, the core runs, and the state is well formed if it was. -/
def Obligations.PlacedWordIsFetched : Prop :=
  ∀ (s : State) (w : Nat), Memory.wf s.mem → w < 65536 →
    (s.withFetchWord 16 w).status = .running ∧ (s.withFetchWord 16 w).fetch = some (BitVec.ofNat 16 w) ∧
    (s.wf → (s.withFetchWord 16 w).wf)
end

