-- ==== Sys2Proof/Laws/Memory.lean ====
section
/-! SUPPORT. Memory: a read after a write, and every operation keeps the canonical form. -/

namespace Sys2Proof.Machine

/-- The address written reads as the byte written. -/
theorem Memory.byteAt_setByte_self {m : Memory} (h : Memory.wf m) (addr : Nat) (b : Byte) :
    Memory.byteAt (Memory.setByte m addr b) addr = b := by
  induction m with
  | nil =>
    unfold Memory.setByte
    split <;> simp_all [Memory.byteAt]
  | cons c rest ih =>
    obtain ⟨a, d⟩ := c
    obtain ⟨hp, hb⟩ := h
    rw [List.pairwise_cons] at hp
    have hrest : Memory.wf rest := ⟨hp.2, fun c hc => hb c (List.mem_cons_of_mem _ hc)⟩
    -- an address below every entry of the rest reads as the unlisted byte
    have habsent : ∀ (m : Memory), (∀ c ∈ m, addr < c.1) → Memory.byteAt m addr = Memory.unlisted := by
      intro m
      induction m with
      | nil => intro _; rfl
      | cons c m ihm =>
        intro hm
        have h1 : addr < c.1 := hm c List.mem_cons_self
        obtain ⟨a', d'⟩ := c
        simp only [Memory.byteAt]
        rw [if_neg (by simp only at h1; omega)]
        exact ihm fun c hc => hm c (List.mem_cons_of_mem _ hc)
    simp only [Memory.setByte]
    by_cases h1 : addr < a
    · rw [if_pos h1]
      split
      · next hu =>
        rw [hu]
        refine habsent _ fun c hc => ?_
        rcases List.mem_cons.mp hc with rfl | hc
        · exact h1
        · exact Nat.lt_trans h1 (hp.1 c hc)
      · simp only [Memory.byteAt, if_true]
    · rw [if_neg h1]
      by_cases h2 : addr = a
      · rw [if_pos h2]
        subst h2
        split
        · next hu => rw [hu]; exact habsent _ hp.1
        · simp only [Memory.byteAt, if_true]
      · rw [if_neg h2]
        simp only [Memory.byteAt, if_neg h2]
        exact ih hrest

/-- Every other address reads as before. -/
theorem Memory.byteAt_setByte_ne (m : Memory) {addr other : Nat} (b : Byte) (h : other ≠ addr) :
    Memory.byteAt (Memory.setByte m addr b) other = Memory.byteAt m other := by
  induction m with
  | nil =>
    unfold Memory.setByte
    split
    · rfl
    · simp only [Memory.byteAt, if_neg h]
  | cons c rest ih =>
    obtain ⟨a, d⟩ := c
    simp only [Memory.setByte]
    split
    · split
      · rfl
      · conv_lhs => unfold Memory.byteAt
        rw [if_neg h]
    · split
      · next hne heq =>
        subst heq
        split <;> simp only [Memory.byteAt, if_neg h]
      · simp only [Memory.byteAt]
        rw [ih]

/-- Every entry after a write is an old one or the one written. -/
theorem Memory.mem_setByte {m : Memory} {addr : Nat} {b : Byte} {c : Host.Cell} (h : c ∈ Memory.setByte m addr b) :
    c ∈ m ∨ (c = (addr, b) ∧ b ≠ Memory.unlisted) := by
  induction m with
  | nil =>
    unfold Memory.setByte at h
    split at h <;> simp_all
  | cons d rest ih =>
    obtain ⟨a, e⟩ := d
    simp only [Memory.setByte] at h
    split at h
    · split at h
      · exact .inl h
      · rcases List.mem_cons.mp h with rfl | h
        · exact .inr ⟨rfl, ‹_›⟩
        · exact .inl h
    · split at h
      · split at h
        · exact .inl (List.mem_cons_of_mem _ h)
        · rcases List.mem_cons.mp h with rfl | h
          · exact .inr ⟨rfl, ‹_›⟩
          · exact .inl (List.mem_cons_of_mem _ h)
      · rcases List.mem_cons.mp h with rfl | h
        · exact .inl List.mem_cons_self
        · rcases ih h with h | h
          · exact .inl (List.mem_cons_of_mem _ h)
          · exact .inr h

/-- A write below 4096 keeps the canonical form. -/
theorem Memory.setByte_wf {m : Memory} (h : Memory.wf m) {addr : Nat} (ha : addr < Config.memSize) (b : Byte) :
    Memory.wf (Memory.setByte m addr b) := by
  refine ⟨?_, fun c hc => ?_⟩
  · obtain ⟨hp, -⟩ := h
    induction m with
    | nil => unfold Memory.setByte; split <;> simp
    | cons c rest ih =>
      obtain ⟨a, d⟩ := c
      rw [List.pairwise_cons] at hp
      simp only [Memory.setByte]
      split
      · next hlt =>
        split
        · exact List.pairwise_cons.mpr hp
        · refine List.pairwise_cons.mpr ⟨fun c hc => ?_, List.pairwise_cons.mpr hp⟩
          rcases List.mem_cons.mp hc with rfl | hc
          · exact hlt
          · exact Nat.lt_trans hlt (hp.1 c hc)
      · split
        · next heq =>
          split
          · exact hp.2
          · exact List.pairwise_cons.mpr ⟨fun c hc => heq ▸ hp.1 c hc, hp.2⟩
        · next hge hne =>
          refine List.pairwise_cons.mpr ⟨fun c hc => ?_, ih hp.2⟩
          rcases Memory.mem_setByte hc with hc | ⟨rfl, -⟩
          · exact hp.1 c hc
          · exact Nat.lt_of_le_of_ne (Nat.le_of_not_lt hge) fun e => hne e.symm
  · rcases Memory.mem_setByte hc with hc | ⟨rfl, hb⟩
    · exact h.2 c hc
    · exact ⟨ha, hb⟩

/-- Writing bytes one after another below 4096 keeps the canonical form. -/
theorem Memory.setBytes_wf {m : Memory} (h : Memory.wf m) {addr : Nat} {bytes : List Byte}
    (ha : addr + bytes.length ≤ Config.memSize) : Memory.wf (Memory.setBytes m addr bytes) := by
  induction bytes generalizing m addr with
  | nil => exact h
  | cons b bs ih =>
    rw [List.length_cons] at ha
    exact ih (Memory.setByte_wf h (by omega) b) (by omega)

/-- `MemWrite` of one byte answers exactly for the addresses that exist, and keeps the canonical form. -/
theorem Memory.write_cases (m : Memory) (addr : Nat) (b : Byte) :
    (addr < Config.memSize ∧ Memory.write m addr b = some (Memory.setByte m addr b) ∧
      (Memory.wf m → Memory.wf (Memory.setByte m addr b))) ∨
    (Config.memSize ≤ addr ∧ Memory.write m addr b = none) := by
  by_cases h : addr < Config.memSize
  · exact .inl ⟨h, if_pos h, fun hm => Memory.setByte_wf hm h b⟩
  · exact .inr ⟨Nat.le_of_not_lt h, if_neg h⟩

/-- `MemWrite` of several bytes answers exactly when all of them exist, and keeps the canonical form. -/
theorem Memory.writeBytes_cases (m : Memory) (addr : Nat) (bytes : List Byte) :
    (addr + bytes.length ≤ Config.memSize ∧ Memory.writeBytes m addr bytes = some (Memory.setBytes m addr bytes) ∧
      (Memory.wf m → Memory.wf (Memory.setBytes m addr bytes))) ∨
    (Config.memSize < addr + bytes.length ∧ Memory.writeBytes m addr bytes = none) := by
  by_cases h : addr + bytes.length ≤ Config.memSize
  · exact .inl ⟨h, if_pos h, fun hm => Memory.setBytes_wf hm h⟩
  · exact .inr ⟨Nat.lt_of_not_le h, if_neg h⟩

/-- A read of an address that exists. -/
theorem Memory.read_eq_some {m : Memory} {addr : Nat} (h : addr < Config.memSize) :
    Memory.read m addr = some (Memory.byteAt m addr) := if_pos h

/-- A read of an address that does not exist. -/
theorem Memory.read_eq_none {m : Memory} {addr : Nat} (h : Config.memSize ≤ addr) : Memory.read m addr = none :=
  if_neg (Nat.not_lt.mpr h)

/-- The memory of the reset state has the canonical form. -/
theorem reset_memory_wf (p : Word) : Memory.wf (State.resetAt p).mem :=
  ⟨List.Pairwise.nil, fun _ h => absurd h List.not_mem_nil⟩

end Sys2Proof.Machine
end

