-- ==== Sys2Proof/Laws/State.lean ====
section
/-! SUPPORT. What each update of the state leaves in each field, by definition, and what the accessors read after it. -/

namespace Sys2Proof.Machine

/-! ### setReg -/

@[simp] theorem State.setReg_v (s : State) (i : RegIdx) (b : Byte) : (s.setReg i b).v = s.v.set i b := rfl
@[simp] theorem State.setReg_mem (s : State) (i : RegIdx) (b : Byte) : (s.setReg i b).mem = s.mem := rfl
@[simp] theorem State.setReg_stack (s : State) (i : RegIdx) (b : Byte) : (s.setReg i b).stack = s.stack := rfl
@[simp] theorem State.setReg_sp (s : State) (i : RegIdx) (b : Byte) : (s.setReg i b).sp = s.sp := rfl
@[simp] theorem State.setReg_pc (s : State) (i : RegIdx) (b : Byte) : (s.setReg i b).pc = s.pc := rfl
@[simp] theorem State.setReg_status (s : State) (i : RegIdx) (b : Byte) : (s.setReg i b).status = s.status := rfl
@[simp] theorem State.setReg_faultCause (s : State) (i : RegIdx) (b : Byte) : (s.setReg i b).faultCause = s.faultCause := rfl
@[simp] theorem State.setReg_faultInfo (s : State) (i : RegIdx) (b : Byte) : (s.setReg i b).faultInfo = s.faultInfo := rfl

/-! ### advance -/

@[simp] theorem State.advance_v (s : State) : (s.advance).v = s.v := rfl
@[simp] theorem State.advance_mem (s : State) : (s.advance).mem = s.mem := rfl
@[simp] theorem State.advance_stack (s : State) : (s.advance).stack = s.stack := rfl
@[simp] theorem State.advance_sp (s : State) : (s.advance).sp = s.sp := rfl
@[simp] theorem State.advance_pc (s : State) : (s.advance).pc = s.pc + 2#16 := rfl
@[simp] theorem State.advance_status (s : State) : (s.advance).status = s.status := rfl
@[simp] theorem State.advance_faultCause (s : State) : (s.advance).faultCause = s.faultCause := rfl
@[simp] theorem State.advance_faultInfo (s : State) : (s.advance).faultInfo = s.faultInfo := rfl

/-! ### setPc -/

@[simp] theorem State.setPc_v (s : State) (w : Word) : (s.setPc w).v = s.v := rfl
@[simp] theorem State.setPc_mem (s : State) (w : Word) : (s.setPc w).mem = s.mem := rfl
@[simp] theorem State.setPc_stack (s : State) (w : Word) : (s.setPc w).stack = s.stack := rfl
@[simp] theorem State.setPc_sp (s : State) (w : Word) : (s.setPc w).sp = s.sp := rfl
@[simp] theorem State.setPc_pc (s : State) (w : Word) : (s.setPc w).pc = w := rfl
@[simp] theorem State.setPc_status (s : State) (w : Word) : (s.setPc w).status = s.status := rfl
@[simp] theorem State.setPc_faultCause (s : State) (w : Word) : (s.setPc w).faultCause = s.faultCause := rfl
@[simp] theorem State.setPc_faultInfo (s : State) (w : Word) : (s.setPc w).faultInfo = s.faultInfo := rfl

/-! ### setStatus -/

@[simp] theorem State.setStatus_v (s : State) (st : Status) : (s.setStatus st).v = s.v := rfl
@[simp] theorem State.setStatus_mem (s : State) (st : Status) : (s.setStatus st).mem = s.mem := rfl
@[simp] theorem State.setStatus_stack (s : State) (st : Status) : (s.setStatus st).stack = s.stack := rfl
@[simp] theorem State.setStatus_sp (s : State) (st : Status) : (s.setStatus st).sp = s.sp := rfl
@[simp] theorem State.setStatus_pc (s : State) (st : Status) : (s.setStatus st).pc = s.pc := rfl
@[simp] theorem State.setStatus_status (s : State) (st : Status) : (s.setStatus st).status = st := rfl
@[simp] theorem State.setStatus_faultCause (s : State) (st : Status) : (s.setStatus st).faultCause = s.faultCause := rfl
@[simp] theorem State.setStatus_faultInfo (s : State) (st : Status) : (s.setStatus st).faultInfo = s.faultInfo := rfl

/-! ### raiseFatal -/

@[simp] theorem State.raiseFatal_v (s : State) (c : FaultCause) (w : Word) : (s.raiseFatal c w).v = s.v := rfl
@[simp] theorem State.raiseFatal_mem (s : State) (c : FaultCause) (w : Word) : (s.raiseFatal c w).mem = s.mem := rfl
@[simp] theorem State.raiseFatal_stack (s : State) (c : FaultCause) (w : Word) : (s.raiseFatal c w).stack = s.stack := rfl
@[simp] theorem State.raiseFatal_sp (s : State) (c : FaultCause) (w : Word) : (s.raiseFatal c w).sp = s.sp := rfl
@[simp] theorem State.raiseFatal_pc (s : State) (c : FaultCause) (w : Word) : (s.raiseFatal c w).pc = s.pc := rfl
@[simp] theorem State.raiseFatal_status (s : State) (c : FaultCause) (w : Word) : (s.raiseFatal c w).status = .faulted := rfl
@[simp] theorem State.raiseFatal_faultCause (s : State) (c : FaultCause) (w : Word) : (s.raiseFatal c w).faultCause = c := rfl
@[simp] theorem State.raiseFatal_faultInfo (s : State) (c : FaultCause) (w : Word) : (s.raiseFatal c w).faultInfo = w := rfl

/-! ### setResultAndFlag -/

@[simp] theorem State.setResultAndFlag_v (s : State) (x : RegIdx) (r f : Byte) : (s.setResultAndFlag x r f).v = (s.v.set x r).set Config.flagReg f := rfl
@[simp] theorem State.setResultAndFlag_mem (s : State) (x : RegIdx) (r f : Byte) : (s.setResultAndFlag x r f).mem = s.mem := rfl
@[simp] theorem State.setResultAndFlag_stack (s : State) (x : RegIdx) (r f : Byte) : (s.setResultAndFlag x r f).stack = s.stack := rfl
@[simp] theorem State.setResultAndFlag_sp (s : State) (x : RegIdx) (r f : Byte) : (s.setResultAndFlag x r f).sp = s.sp := rfl
@[simp] theorem State.setResultAndFlag_pc (s : State) (x : RegIdx) (r f : Byte) : (s.setResultAndFlag x r f).pc = s.pc := rfl
@[simp] theorem State.setResultAndFlag_status (s : State) (x : RegIdx) (r f : Byte) : (s.setResultAndFlag x r f).status = s.status := rfl
@[simp] theorem State.setResultAndFlag_faultCause (s : State) (x : RegIdx) (r f : Byte) : (s.setResultAndFlag x r f).faultCause = s.faultCause := rfl
@[simp] theorem State.setResultAndFlag_faultInfo (s : State) (x : RegIdx) (r f : Byte) : (s.setResultAndFlag x r f).faultInfo = s.faultInfo := rfl

/-! ### skipIf -/

@[simp] theorem State.skipIf_v (s : State) (c : Bool) : (s.skipIf c).v = s.v := by cases c <;> rfl
@[simp] theorem State.skipIf_mem (s : State) (c : Bool) : (s.skipIf c).mem = s.mem := by cases c <;> rfl
@[simp] theorem State.skipIf_stack (s : State) (c : Bool) : (s.skipIf c).stack = s.stack := by cases c <;> rfl
@[simp] theorem State.skipIf_sp (s : State) (c : Bool) : (s.skipIf c).sp = s.sp := by cases c <;> rfl
@[simp] theorem State.skipIf_pc (s : State) (c : Bool) : (s.skipIf c).pc = if c then s.pc + 2#16 else s.pc := by
  cases c <;> rfl
@[simp] theorem State.skipIf_status (s : State) (c : Bool) : (s.skipIf c).status = s.status := by cases c <;> rfl
@[simp] theorem State.skipIf_faultCause (s : State) (c : Bool) : (s.skipIf c).faultCause = s.faultCause := by cases c <;> rfl
@[simp] theorem State.skipIf_faultInfo (s : State) (c : Bool) : (s.skipIf c).faultInfo = s.faultInfo := by cases c <;> rfl

/-! ### resetAt -/

@[simp] theorem State.resetAt_v (p : Word) : (State.resetAt p).v = Vector.replicate 16 0x00#8 := rfl
@[simp] theorem State.resetAt_mem (p : Word) : (State.resetAt p).mem = [] := rfl
@[simp] theorem State.resetAt_stack (p : Word) : (State.resetAt p).stack = Vector.replicate 16 0x0000#16 := rfl
@[simp] theorem State.resetAt_sp (p : Word) : (State.resetAt p).sp = 0#5 := rfl
@[simp] theorem State.resetAt_pc (p : Word) : (State.resetAt p).pc = p := rfl
@[simp] theorem State.resetAt_status (p : Word) : (State.resetAt p).status = .idle := rfl
@[simp] theorem State.resetAt_faultCause (p : Word) : (State.resetAt p).faultCause = .none := rfl
@[simp] theorem State.resetAt_faultInfo (p : Word) : (State.resetAt p).faultInfo = 0x0000#16 := rfl

/-! ### The accessors -/

theorem State.reg_eq (s : State) (i : RegIdx) : s.reg i = s.v[i] := rfl

theorem State.slot_eq (s : State) (i : Fin 16) : s.slot i = s.stack[i] := rfl

theorem State.readMem_eq (s : State) (a : Nat) : s.readMem a = Memory.read s.mem a := rfl

/-- The registers read the same in states with the same register file. -/
theorem State.reg_congr {s t : State} (h : t.v = s.v) (i : RegIdx) : t.reg i = s.reg i := by simp only [State.reg_eq, h]

/-- The slots read the same in states with the same slots. -/
theorem State.slot_congr {s t : State} (h : t.stack = s.stack) (i : Fin 16) : t.slot i = s.slot i := by
  simp only [State.slot_eq, h]

/-- Memory reads the same in states with the same memory. -/
theorem State.readMem_congr {s t : State} (h : t.mem = s.mem) (a : Nat) : t.readMem a = s.readMem a := by
  simp only [State.readMem_eq, h]

/-- A register reads what was last written to it, and no other register changes. -/
theorem State.reg_setReg (s : State) (i j : RegIdx) (b : Byte) : (s.setReg i b).reg j = if j = i then b else s.reg j := by
  simp only [State.reg_eq, State.setReg_v, Fin.getElem_fin]
  split
  · next h => subst h; exact Vector.getElem_set_self _
  · next h => exact Vector.getElem_set_ne _ _ fun e => h (Fin.ext e.symm)

@[simp] theorem State.reg_setReg_self (s : State) (i : RegIdx) (b : Byte) : (s.setReg i b).reg i = b := by
  simp only [State.reg_setReg, if_true]

theorem State.reg_setReg_ne (s : State) {i j : RegIdx} (b : Byte) (h : j ≠ i) : (s.setReg i b).reg j = s.reg j := by
  simp only [State.reg_setReg, if_neg h]

/-- After the two writes the flag register holds the flag, the destination the result unless it is the flag register. -/
theorem State.reg_setResultAndFlag (s : State) (x j : RegIdx) (r f : Byte) :
    (s.setResultAndFlag x r f).reg j = if j = Config.flagReg then f else if j = x then r else s.reg j := by
  simp only [State.setResultAndFlag, State.reg_setReg]

@[simp] theorem State.reg_advance (s : State) (i : RegIdx) : s.advance.reg i = s.reg i := rfl

@[simp] theorem State.slot_advance (s : State) (i : Fin 16) : s.advance.slot i = s.slot i := rfl

@[simp] theorem State.readMem_advance (s : State) (a : Nat) : s.advance.readMem a = s.readMem a := rfl

/-- While a handler acts after the advance, the fetch address is the pc before it. -/
@[simp] theorem State.instrAddr_advance (s : State) : s.advance.instrAddr = s.pc := by
  simp only [State.instrAddr, State.advance_pc, BitVec.add_sub_cancel]

end Sys2Proof.Machine
end

