-- ==== Sys2Proof/Laws/Ops.lean ====
section
/-! SUPPORT. One lemma per shared operation: everything it can do. -/

namespace Sys2Proof.Machine

/-- `push` either fails for want of a slot or writes the slot `SP` and counts it. -/
theorem State.push_cases (s : State) (w : Word) :
    (∃ h : s.sp.toNat < 16,
      s.push w = some { s with stack := s.stack.set s.sp.toNat w, sp := s.sp + 1#5 }) ∨
    (16 ≤ s.sp.toNat ∧ s.push w = none) := by
  by_cases h : s.sp.toNat < 16
  · exact .inl ⟨h, dif_pos h⟩
  · exact .inr ⟨Nat.le_of_not_lt h, dif_neg h⟩

/-- `pop` of a pointer 1 to 16 gives the slot below it and changes only the pointer. -/
theorem State.pop_eq_some {s : State} (h1 : 1 ≤ s.sp.toNat) (h2 : s.sp.toNat ≤ 16) :
    s.pop = some ({ s with sp := s.sp - 1#5 }, s.slot ⟨s.sp.toNat - 1, by omega⟩) := by
  have e : (s.sp - 1#5).toNat = s.sp.toNat - 1 := by
    have := s.sp.isLt
    simp only [BitVec.toNat_sub, BitVec.toNat_ofNat]
    omega
  have h : (s.sp - 1#5).toNat < 16 := by omega
  rw [State.pop, dif_pos h]
  simp only [State.slot_eq, Fin.getElem_fin, e]

/-- `pop` of a pointer 0 or above 16 finds no slot. -/
theorem State.pop_eq_none {s : State} (h : s.sp.toNat = 0 ∨ 16 < s.sp.toNat) : s.pop = none := by
  have e : ¬ (s.sp - 1#5).toNat < 16 := by
    have := s.sp.isLt
    simp only [BitVec.toNat_sub, BitVec.toNat_ofNat]
    omega
  exact dif_neg e

/-- The bound of a fetch. -/
theorem fetchOk_iff (p : Word) : fetchOk p = true ↔ p.toNat ≤ Config.lastFetch := by
  simp only [fetchOk, decide_eq_true_eq]

/-- A fetch in bounds reads the two bytes; out of bounds it reads nothing. -/
theorem State.fetch_cases (s : State) :
    (s.pc.toNat ≤ Config.lastFetch ∧
      s.fetch = some (wordOfBytes (Memory.byteAt s.mem s.pc.toNat) (Memory.byteAt s.mem (s.pc.toNat + 1)))) ∨
    (Config.lastFetch < s.pc.toNat ∧ s.fetch = none) := by
  by_cases h : s.pc.toNat ≤ Config.lastFetch
  · refine .inl ⟨h, ?_⟩
    have h1 : s.pc.toNat < Config.memSize := by simp only [Config.lastFetch, Config.memSize] at *; omega
    have h2 : s.pc.toNat + 1 < Config.memSize := by simp only [Config.lastFetch, Config.memSize] at *; omega
    rw [State.fetch, if_pos ((fetchOk_iff _).mpr h), State.readMem, State.readMem, Memory.read_eq_some h1,
      Memory.read_eq_some h2]
  · refine .inr ⟨Nat.lt_of_not_le h, ?_⟩
    rw [State.fetch, if_neg fun e => h ((fetchOk_iff _).mp e)]

/-- The exact sum, truncated, is the sum of bit vectors. -/
theorem addBytes_eq (a b : Byte) : addBytes a b = a + b := by
  apply BitVec.eq_of_toNat_eq
  simp only [addBytes, trunc8, BitVec.toNat_ofInt, BitVec.toNat_add]
  omega

/-- The exact difference, truncated, is the difference of bit vectors. -/
theorem subBytes_eq (a b : Byte) : subBytes a b = a - b := by
  apply BitVec.eq_of_toNat_eq
  have := a.isLt
  have := b.isLt
  simp only [subBytes, trunc8, BitVec.toNat_ofInt, BitVec.toNat_sub]
  omega

/-- The carry flag is 0x00 or 0x01, and says whether the exact sum leaves a byte. -/
theorem carryFlag_cases (a b : Byte) :
    (255 < a.toNat + b.toNat ∧ carryFlag a b = 0x01#8) ∨ (a.toNat + b.toNat ≤ 255 ∧ carryFlag a b = 0x00#8) := by
  by_cases h : a.toNat + b.toNat > 255
  · exact .inl ⟨h, if_pos h⟩
  · exact .inr ⟨Nat.le_of_not_lt h, if_neg h⟩

/-- The no-borrow flag is 0x00 or 0x01, and says whether the difference is negative. -/
theorem noBorrowFlag_cases (a b : Byte) :
    (a.toNat < b.toNat ∧ noBorrowFlag a b = 0x00#8) ∨ (b.toNat ≤ a.toNat ∧ noBorrowFlag a b = 0x01#8) := by
  by_cases h : a.toNat < b.toNat
  · exact .inl ⟨h, if_pos h⟩
  · exact .inr ⟨Nat.le_of_not_lt h, if_neg h⟩

end Sys2Proof.Machine
end

