-- ==== Sys2Proof/Laws/Exec.lean ====
section
/-! SUPPORT. What one handler can do: the ten effects, said once, and the frame each shared update keeps. -/

namespace Sys2Proof.Machine

/-- The ten ways a handler can answer a next state. -/
inductive Effect : Instr → State → State → Prop where
  | halted (s : State) : Effect .halt s (s.setStatus .halted)
  | inert (s : State) : Effect .cls s s
  | jumped (s : State) (nnn : Addr) : Effect (.jp nnn) s (s.setPc (targetOf nnn))
  | underflowed (s : State) (h : s.sp.toNat = 0) : Effect .ret s (s.raiseFatal .stackUnderflow s.instrAddr)
  | returned (s : State) (h1 : 1 ≤ s.sp.toNat) (h2 : s.sp.toNat ≤ 16) :
      Effect .ret s { s with sp := s.sp - 1#5, pc := s.slot ⟨s.sp.toNat - 1, by omega⟩ }
  | overflowed (s : State) (nnn : Addr) (h : s.sp.toNat = 16) :
      Effect (.call nnn) s (s.raiseFatal .stackOverflow s.instrAddr)
  | called (s : State) (nnn : Addr) (h : s.sp.toNat < 16) :
      Effect (.call nnn) s { s with stack := s.stack.set s.sp.toNat s.pc, sp := s.sp + 1#5, pc := targetOf nnn }
  | skipped (i : Instr) (s : State) (c : Bool) (h : skipCondition s i = some c) : Effect i s (s.skipIf c)
  | wroteOne (i : Instr) (s : State) (x : RegIdx) (b : Byte) (h : writtenRegisters i = [x]) : Effect i s (s.setReg x b)
  | wroteTwo (i : Instr) (s : State) (x : RegIdx) (r f : Byte) (h : writtenRegisters i = [x, 15])
      (hf : f = 0x00#8 ∨ f = 0x01#8) : Effect i s (s.setResultAndFlag x r f)

/-- A comparison of `SP` with a literal, in numbers. -/
theorem sp_eq_iff (s : State) {n : Nat} (hn : n < 32) : s.sp = BitVec.ofNat 5 n ↔ s.sp.toNat = n := by
  constructor
  · rintro h
    rw [h, BitVec.toNat_ofNat, Nat.mod_eq_of_lt hn]
  · intro h
    apply BitVec.eq_of_toNat_eq
    rw [h, BitVec.toNat_ofNat, Nat.mod_eq_of_lt hn]

/-- Everything `CALL` can do. -/
theorem execCall_cases (nnn : Addr) (s : State) :
    (s.sp.toNat = 16 ∧ execCall nnn s = .next (s.raiseFatal .stackOverflow s.instrAddr)) ∨
    (∃ h : s.sp.toNat < 16, execCall nnn s =
      .next { s with stack := s.stack.set s.sp.toNat s.pc, sp := s.sp + 1#5, pc := targetOf nnn }) ∨
    (16 < s.sp.toNat ∧ execCall nnn s = .fault .stackSlotAbsent) := by
  by_cases h16 : s.sp.toNat = 16
  · exact .inl ⟨h16, if_pos ((sp_eq_iff s (by omega)).mpr h16)⟩
  · have hne : ¬ s.sp = 16#5 := fun e => h16 ((sp_eq_iff s (by omega)).mp e)
    rcases s.push_cases s.pc with ⟨h, e⟩ | ⟨h, e⟩
    · refine .inr (.inl ⟨h, ?_⟩)
      simp only [execCall, if_neg hne, e]
      rfl
    · refine .inr (.inr ⟨by omega, ?_⟩)
      simp only [execCall, if_neg hne, e]

/-- Everything `RET` can do. -/
theorem execRet_cases (s : State) :
    (s.sp.toNat = 0 ∧ execRet s = .next (s.raiseFatal .stackUnderflow s.instrAddr)) ∨
    (∃ (_ : 1 ≤ s.sp.toNat) (_ : s.sp.toNat ≤ 16), execRet s =
      .next { s with sp := s.sp - 1#5, pc := s.slot ⟨s.sp.toNat - 1, by omega⟩ }) ∨
    (16 < s.sp.toNat ∧ execRet s = .fault .stackSlotAbsent) := by
  by_cases h0 : s.sp.toNat = 0
  · exact .inl ⟨h0, if_pos ((sp_eq_iff s (by omega)).mpr h0)⟩
  · have hne : ¬ s.sp = 0#5 := fun e => h0 ((sp_eq_iff s (by omega)).mp e)
    by_cases h : s.sp.toNat ≤ 16
    · refine .inr (.inl ⟨by omega, h, ?_⟩)
      simp only [execRet, if_neg hne, State.pop_eq_some (by omega) h]
      rfl
    · have hp : s.pop = none := State.pop_eq_none (.inr (by omega))
      refine .inr (.inr ⟨by omega, ?_⟩)
      simp only [execRet, if_neg hne, hp]

/-- A next state of a handler is one of the ten effects. -/
theorem exec_effect {i : Instr} {s t : State} (h : exec i s = .next t) : Effect i s t := by
  cases i with
  | halt => injection h with h; exact h ▸ .halted s
  | cls => injection h with h; exact h ▸ .inert s
  | ret =>
    rcases execRet_cases s with ⟨h0, e⟩ | ⟨h1, h2, e⟩ | ⟨-, e⟩
    · injection e.symm.trans h with h; exact h ▸ .underflowed s h0
    · injection e.symm.trans h with h; exact h ▸ .returned s h1 h2
    · exact absurd (e.symm.trans h) (by simp)
  | jp nnn => injection h with h; exact h ▸ .jumped s nnn
  | call nnn =>
    rcases execCall_cases nnn s with ⟨h0, e⟩ | ⟨h1, e⟩ | ⟨-, e⟩
    · injection e.symm.trans h with h; exact h ▸ .overflowed s nnn h0
    · injection e.symm.trans h with h; exact h ▸ .called s nnn h1
    · exact absurd (e.symm.trans h) (by simp)
  | seI x kk => injection h with h; exact h ▸ .skipped _ s _ rfl
  | sneI x kk =>
    injection h with h
    exact h ▸ .skipped _ s _ (by simp only [skipCondition, bne, ne_eq, decide_not]; rfl)
  | seR x y => injection h with h; exact h ▸ .skipped _ s _ rfl
  | sneR x y =>
    injection h with h
    exact h ▸ .skipped _ s _ (by simp only [skipCondition, bne, ne_eq, decide_not]; rfl)
  | ldI x kk => injection h with h; exact h ▸ .wroteOne _ s x _ rfl
  | addI x kk => injection h with h; exact h ▸ .wroteOne _ s x _ rfl
  | ldR x y => injection h with h; exact h ▸ .wroteOne _ s x _ rfl
  | orR x y => injection h with h; exact h ▸ .wroteOne _ s x _ rfl
  | andR x y => injection h with h; exact h ▸ .wroteOne _ s x _ rfl
  | xorR x y => injection h with h; exact h ▸ .wroteOne _ s x _ rfl
  | addR x y =>
    injection h with h
    exact h ▸ .wroteTwo _ s x _ _ rfl ((carryFlag_cases _ _).elim (fun c => .inr c.2) fun c => .inl c.2)
  | subR x y =>
    injection h with h
    exact h ▸ .wroteTwo _ s x _ _ rfl ((noBorrowFlag_cases _ _).elim (fun c => .inl c.2) fun c => .inr c.2)

/-! ## Frames of the shared updates -/

theorem setReg_frame (s : State) (x : RegIdx) (b : Byte) : OnlyRegistersWritten [x] s (s.setReg x b) :=
  ⟨fun _ hj => State.reg_setReg_ne s b fun e => hj (e ▸ List.mem_singleton_self x), fun _ => rfl, ⟨fun _ => rfl, rfl⟩,
    ⟨rfl, rfl⟩, rfl, rfl⟩

theorem setResultAndFlag_frame (s : State) (x : RegIdx) (r f : Byte) :
    OnlyRegistersWritten [x, 15] s (s.setResultAndFlag x r f) := by
  refine ⟨fun j hj => ?_, fun _ => rfl, ⟨fun _ => rfl, rfl⟩, ⟨rfl, rfl⟩, rfl, rfl⟩
  simp only [List.mem_cons, List.not_mem_nil, or_false, not_or] at hj
  rw [State.reg_setResultAndFlag, if_neg hj.2, if_neg hj.1]

theorem setPc_frame (s : State) (w : Word) : OnlyPcWritten s (s.setPc w) :=
  ⟨fun _ _ => rfl, fun _ => rfl, ⟨fun _ => rfl, rfl⟩, ⟨rfl, rfl⟩, rfl⟩

theorem skipIf_frame (s : State) (c : Bool) : OnlyPcWritten s (s.skipIf c) := by
  cases c <;> exact ⟨fun _ _ => rfl, fun _ => rfl, ⟨fun _ => rfl, rfl⟩, ⟨rfl, rfl⟩, rfl⟩

theorem raiseFatal_frame (s : State) (cause : FaultCause) (info : Word) :
    FatalEntered cause info s (s.raiseFatal cause info) :=
  ⟨rfl, rfl, rfl, fun _ _ => rfl, fun _ => rfl, ⟨fun _ => rfl, rfl⟩, rfl⟩

end Sys2Proof.Machine
end

