-- ==== Sys2Proof/Laws/PerInstr.lean ====
section
/-! SUPPORT. Per instruction: the row of the opcode map that bears its mnemonic selects its encoding (30 R55). -/

namespace Sys2Proof.Laws.TableRow

/-- A row of the opcode map bears the instruction's mnemonic and form, and selects its encoding. -/
def Statement (i : Instr) : Prop :=
  ∃ r ∈ opcodeTable, r.mnemonic = i.mnemonic ∧ r.form = i.mnemonic.form ∧ r.selects (encode i) = true

theorem nibble_and_ones (n : Nibble) : n &&& 0xF#4 = n := BitVec.and_allOnes

/-- Under the mask of its rows a word of form A keeps its class alone. -/
theorem formA_masked (cls : Nibble) (nnn : Addr) : formA cls nnn &&& 0xF000#16 = formA cls 0#12 := by
  change (cls ++ nnn) &&& (0xF#4 ++ 0x000#12) = cls ++ 0#12
  rw [BitVec.and_append, nibble_and_ones, BitVec.and_zero]

/-- Under the mask of its rows a word of form XK keeps its class alone. -/
theorem formXK_masked (cls : Nibble) (x : RegIdx) (kk : Byte) : formXK cls x kk &&& 0xF000#16 = formXK cls 0 0#8 := by
  change (cls ++ regField x ++ kk) &&& (0xF#4 ++ 0x0#4 ++ 0x00#8) = cls ++ 0#4 ++ 0#8
  rw [BitVec.and_append, BitVec.and_append, nibble_and_ones, BitVec.and_zero, BitVec.and_zero]

/-- Under the mask of its rows a word of form XY keeps its class and `d`. -/
theorem formXY_masked (cls : Nibble) (x y : RegIdx) (d : Nibble) :
    formXY cls x y d &&& 0xF00F#16 = formXY cls 0 0 d := by
  change (cls ++ regField x ++ regField y ++ d) &&& (0xF#4 ++ 0x0#4 ++ 0x0#4 ++ 0xF#4) = cls ++ 0#4 ++ 0#4 ++ d
  rw [BitVec.and_append, BitVec.and_append, BitVec.and_append, nibble_and_ones, nibble_and_ones, BitVec.and_zero,
    BitVec.and_zero]

/-- A row whose mask fits form A selects a word of that form with its class. -/
theorem selects_formA {m : Mnemonic} {p : Word} {cls : Nibble} (nnn : Addr) (h : formA cls 0#12 = p) :
    OpRow.selects ⟨m, p, 0xF000#16, .a⟩ (formA cls nnn) = true := by
  simp only [OpRow.selects, formA_masked, h, beq_self_eq_true]

/-- A row whose mask fits form XK selects a word of that form with its class. -/
theorem selects_formXK {m : Mnemonic} {p : Word} {cls : Nibble} (x : RegIdx) (kk : Byte) (h : formXK cls 0 0#8 = p) :
    OpRow.selects ⟨m, p, 0xF000#16, .xk⟩ (formXK cls x kk) = true := by
  simp only [OpRow.selects, formXK_masked, h, beq_self_eq_true]

/-- A row whose mask fits form XY selects a word of that form with its class and `d`. -/
theorem selects_formXY {m : Mnemonic} {p : Word} {cls d : Nibble} (x y : RegIdx) (h : formXY cls 0 0 d = p) :
    OpRow.selects ⟨m, p, 0xF00F#16, .xy⟩ (formXY cls x y d) = true := by
  simp only [OpRow.selects, formXY_masked, h, beq_self_eq_true]

theorem halt : Statement .halt := ⟨⟨.halt, 0x0000#16, 0xFFFF#16, .z⟩, by decide, rfl, rfl, by decide⟩
theorem cls : Statement .cls := ⟨⟨.cls, 0x00E0#16, 0xFFFF#16, .z⟩, by decide, rfl, rfl, by decide⟩
theorem ret : Statement .ret := ⟨⟨.ret, 0x00EE#16, 0xFFFF#16, .z⟩, by decide, rfl, rfl, by decide⟩
theorem jp (nnn : Addr) : Statement (.jp nnn) :=
  ⟨⟨.jp, 0x1000#16, 0xF000#16, .a⟩, by decide, rfl, rfl, selects_formA nnn (by decide)⟩
theorem call (nnn : Addr) : Statement (.call nnn) :=
  ⟨⟨.call, 0x2000#16, 0xF000#16, .a⟩, by decide, rfl, rfl, selects_formA nnn (by decide)⟩
theorem seI (x : RegIdx) (kk : Byte) : Statement (.seI x kk) :=
  ⟨⟨.seI, 0x3000#16, 0xF000#16, .xk⟩, by decide, rfl, rfl, selects_formXK x kk (by decide)⟩
theorem sneI (x : RegIdx) (kk : Byte) : Statement (.sneI x kk) :=
  ⟨⟨.sneI, 0x4000#16, 0xF000#16, .xk⟩, by decide, rfl, rfl, selects_formXK x kk (by decide)⟩
theorem seR (x y : RegIdx) : Statement (.seR x y) :=
  ⟨⟨.seR, 0x5000#16, 0xF00F#16, .xy⟩, by decide, rfl, rfl, selects_formXY x y (by decide)⟩
theorem sneR (x y : RegIdx) : Statement (.sneR x y) :=
  ⟨⟨.sneR, 0x9000#16, 0xF00F#16, .xy⟩, by decide, rfl, rfl, selects_formXY x y (by decide)⟩
theorem ldI (x : RegIdx) (kk : Byte) : Statement (.ldI x kk) :=
  ⟨⟨.ldI, 0x6000#16, 0xF000#16, .xk⟩, by decide, rfl, rfl, selects_formXK x kk (by decide)⟩
theorem addI (x : RegIdx) (kk : Byte) : Statement (.addI x kk) :=
  ⟨⟨.addI, 0x7000#16, 0xF000#16, .xk⟩, by decide, rfl, rfl, selects_formXK x kk (by decide)⟩
theorem ldR (x y : RegIdx) : Statement (.ldR x y) :=
  ⟨⟨.ldR, 0x8000#16, 0xF00F#16, .xy⟩, by decide, rfl, rfl, selects_formXY x y (by decide)⟩
theorem orR (x y : RegIdx) : Statement (.orR x y) :=
  ⟨⟨.orR, 0x8001#16, 0xF00F#16, .xy⟩, by decide, rfl, rfl, selects_formXY x y (by decide)⟩
theorem andR (x y : RegIdx) : Statement (.andR x y) :=
  ⟨⟨.andR, 0x8002#16, 0xF00F#16, .xy⟩, by decide, rfl, rfl, selects_formXY x y (by decide)⟩
theorem xorR (x y : RegIdx) : Statement (.xorR x y) :=
  ⟨⟨.xorR, 0x8003#16, 0xF00F#16, .xy⟩, by decide, rfl, rfl, selects_formXY x y (by decide)⟩
theorem addR (x y : RegIdx) : Statement (.addR x y) :=
  ⟨⟨.addR, 0x8004#16, 0xF00F#16, .xy⟩, by decide, rfl, rfl, selects_formXY x y (by decide)⟩
theorem subR (x y : RegIdx) : Statement (.subR x y) :=
  ⟨⟨.subR, 0x8005#16, 0xF00F#16, .xy⟩, by decide, rfl, rfl, selects_formXY x y (by decide)⟩

end Sys2Proof.Laws.TableRow
end

