-- ==== Sys2Proof/Laws/Step.lean ====
section
/-! SUPPORT. What one step can do: a core that is not running stands still; a running one fetches out of bounds, finds an
undefined word, or runs one handler. -/

namespace Sys2Proof.Machine

/-- A core that is not running answers the same state. -/
theorem step_of_not_running {s : State} (h : s.status ≠ .running) : step s = .next s := by
  unfold step coreStep
  split <;> simp_all

/-- A running core performs the cycle. -/
theorem step_of_running {s : State} (h : s.status = .running) : step s = cycle s := by
  unfold step coreStep
  rw [h]

/-- Everything a step can do. -/
theorem step_cases (s : State) :
    (s.status ≠ .running ∧ step s = .next s) ∨
    (s.status = .running ∧ s.fetch = none ∧ step s = .next (s.raiseFatal .fetchOutOfBounds s.pc)) ∨
    (∃ op, s.status = .running ∧ s.fetch = some op ∧ decodeWord op = none ∧
      step s = .next (s.advance.raiseFatal .unknownOpcode op)) ∨
    (∃ op i, s.status = .running ∧ s.fetch = some op ∧ decodeWord op = some i ∧ step s = exec i s.advance) := by
  by_cases h : s.status = .running
  · right
    rw [step_of_running h]
    unfold cycle
    cases hf : s.fetch with
    | none => exact .inl ⟨h, rfl, rfl⟩
    | some op =>
      right
      simp only [State.dispatch]
      cases hd : decodeWord op with
      | none => exact .inl ⟨op, h, rfl, hd, rfl⟩
      | some i => exact .inr ⟨op, i, h, rfl, hd, rfl⟩
  · exact .inl ⟨h, step_of_not_running h⟩

end Sys2Proof.Machine
end

