-- ==== Sys2Proof/Tests/Slice0.lean ====
section
/-! SUPPORT. The model's own tests: ill-formed source lines, decoding of words written out from the patterns of 30 R55,
single steps with the values of spec/95_test_vectors.md (the vector's number stands in the docstring), and a witness for the
hypotheses of every statement that has some. -/

namespace Sys2Proof.Tests

open Sys2Proof Sys2Proof.Machine

/-! ## Ill-formed source lines are refused (30 R61, R62) -/

theorem test_form_z_with_operand : (SourceLine.instr .halt [.lit 0]).wellFormed = false := by decide
theorem test_form_a_without_operand : (SourceLine.instr .jp []).wellFormed = false := by decide
theorem test_form_xk_operands_swapped : (SourceLine.instr .ldI [.lit 1, .reg 1]).wellFormed = false := by decide
theorem test_form_xy_with_literal : (SourceLine.instr .addR [.reg 0, .lit 1]).wellFormed = false := by decide
theorem test_register_16 : (SourceLine.instr .seI [.reg 16, .lit 0]).wellFormed = false := by decide
theorem test_second_register_16 : (SourceLine.instr .subR [.reg 0, .reg 16]).wellFormed = false := by decide
theorem test_immediate_256 : (SourceLine.instr .addI [.reg 0, .lit 256]).wellFormed = false := by decide
theorem test_address_4096 : (SourceLine.instr .call [.lit 4096]).wellFormed = false := by decide
theorem test_dw_65536 : (SourceLine.dw 65536).wellFormed = false := by decide
theorem test_db_256 : (SourceLine.db 256).wellFormed = false := by decide

/-- P8: `DB 0x00` is one byte; P6: `DW 0x8016` is two, high byte first. -/
theorem test_directives : assemble (.db 0) = some [0x00#8] ∧ assemble (.dw 0x8016) = some [0x80#8, 0x16#8] := by decide

/-- P5: `ADD_R V1, V3` is 8134: the destination is the first operand. -/
theorem test_assemble_add : assemble (.instr .addR [.reg 1, .reg 3]) = some [0x81#8, 0x34#8] := by decide

/-- P3: a line with an address and a comment; labels stand in the comment. -/
theorem test_read_line : readLine "0006: ADD_I V2, 0x05   ; 7205     loop:".toList =
    some ⟨some 6, some (.instr .addI [.reg 2, .lit 5])⟩ := by decide

/-- P8's listing places P8's image. -/
theorem test_read_listing :
    readListing "0000: JP 0x003         ; 1003
0002: DB 0x00
0003: LD_I VA, 0x55    ; 6A55
0005: HALT".toList =
    some [(0, 0x10#8), (1, 0x03#8), (2, 0x00#8), (3, 0x6A#8), (4, 0x55#8), (5, 0x00#8), (6, 0x00#8)] := by decide

/-- `VG` is no register. -/
theorem test_read_bad_register : readLine "LD_I VG, 0x01".toList = none := by decide

/-! ## Decoding: every constructor by a word of section 2 of 95 -/

theorem test_decode_halt : decode [0x00#8, 0x00#8] = .ok (.halt, []) := by decide
theorem test_decode_cls : decode [0x00#8, 0xE0#8] = .ok (.cls, []) := by decide
theorem test_decode_ret : decode [0x00#8, 0xEE#8] = .ok (.ret, []) := by decide
theorem test_decode_jp : decode [0x12#8, 0x34#8] = .ok (.jp 0x234#12, []) := by decide
theorem test_decode_call : decode [0x21#8, 0x00#8] = .ok (.call 0x100#12, []) := by decide
theorem test_decode_seI : decode [0x32#8, 0x2A#8] = .ok (.seI 2 0x2A#8, []) := by decide
theorem test_decode_sneI : decode [0x42#8, 0xFF#8] = .ok (.sneI 2 0xFF#8, []) := by decide
theorem test_decode_seR : decode [0x51#8, 0x20#8] = .ok (.seR 1 2, []) := by decide
theorem test_decode_sneR : decode [0x90#8, 0x10#8] = .ok (.sneR 0 1, []) := by decide
theorem test_decode_ldI : decode [0x6A#8, 0x55#8] = .ok (.ldI 10 0x55#8, []) := by decide
theorem test_decode_addI : decode [0x72#8, 0x05#8] = .ok (.addI 2 0x05#8, []) := by decide
theorem test_decode_ldR : decode [0x80#8, 0xF0#8] = .ok (.ldR 0 15, []) := by decide
theorem test_decode_orR : decode [0x80#8, 0x11#8] = .ok (.orR 0 1, []) := by decide
theorem test_decode_andR : decode [0x80#8, 0x12#8] = .ok (.andR 0 1, []) := by decide
theorem test_decode_xorR : decode [0x80#8, 0x13#8] = .ok (.xorR 0 1, []) := by decide
theorem test_decode_addR : decode [0x8F#8, 0x14#8] = .ok (.addR 15 1, []) := by decide
theorem test_decode_subR : decode [0x80#8, 0xF5#8] = .ok (.subR 0 15, []) := by decide

/-- U1 to U6: class 0 compares all 16 bits; classes 5 and 9 need `d = 0`. -/
theorem test_undefined_classes_0_5_9 :
    decodeWord 0x0001#16 = none ∧ decodeWord 0x00E1#16 = none ∧ decodeWord 0x01EE#16 = none ∧
    decodeWord 0x0100#16 = none ∧ decodeWord 0x5121#16 = none ∧ decodeWord 0x9011#16 = none := by decide

/-- U7 to U16: class 8 needs `d <= 5`; the classes A to F have nothing. -/
theorem test_undefined_classes_8_and_above :
    decodeWord 0x8016#16 = none ∧ decodeWord 0x801E#16 = none ∧ decodeWord 0xA123#16 = none ∧
    decodeWord 0xB000#16 = none ∧ decodeWord 0xD015#16 = none ∧ decodeWord 0xFFFF#16 = none := by decide

/-- The decoder names the word it rejects, and a lone byte. -/
theorem test_decode_rejects_by_name :
    decode [0x80#8, 0x16#8] = .error (.undefinedEncoding 0x8016#16) ∧ decode [0x80#8] = .error .truncated := by decide

/-! ## Single steps -/

/-- A running core in the reset state but for the pc and the opcode there: the default start of section 2 of 95. -/
def start (pc op : Word) : State :=
  { State.resetAt pc with mem := Memory.setBytes [] pc.toNat (bytesOfWord op), status := .running }

/-- The default start with some registers set. -/
def startWith (op : Word) (regs : List (RegIdx × Byte)) : State :=
  regs.foldl (fun s r => s.setReg r.1 r.2) (start 0x0200#16 op)

/-- A field of the state after one step, `none` if there is no next state. -/
def after {α : Type} (s : State) (field : State → α) : Option α := (nextState (step s)).map field

/-- Pc, status, cause and detail: what a run's end shows. -/
def outcome (s : State) : Word × Status × FaultCause × Word := (s.pc, s.status, s.faultCause, s.faultInfo)

/-- C1. -/
theorem test_halt : after (start 0x0200#16 0x0000#16) outcome = some (0x0202#16, .halted, .none, 0#16) := by decide
/-- C3: no fault at the last word. -/
theorem test_halt_last_word : after (start 0x0FFE#16 0x0000#16) outcome = some (0x1000#16, .halted, .none, 0#16) := by decide
/-- F4, C4. -/
theorem test_cls : after (start 0x0FFE#16 0x00E0#16) outcome = some (0x1000#16, .running, .none, 0#16) := by decide
/-- F2: the byte order. -/
theorem test_jp : after (start 0x0200#16 0x1480#16) (·.pc) = some 0x0480#16 := by decide
/-- C8: an odd target. -/
theorem test_jp_odd : after (start 0x0200#16 0x1003#16) outcome = some (0x0003#16, .running, .none, 0#16) := by decide
/-- C9. -/
theorem test_call : after (start 0x0000#16 0x2100#16) (fun t => (t.slot 0, t.sp, t.pc)) =
    some (0x0002#16, 1#5, 0x0100#16) := by decide
/-- C10: the sixteenth nested call. -/
theorem test_call_last_slot : after { start 0x0200#16 0x2100#16 with sp := 15#5 } (fun t => (t.slot 15, t.sp, t.pc)) =
    some (0x0202#16, 16#5, 0x0100#16) := by decide
/-- C11. -/
theorem test_call_overflow : after { start 0x0200#16 0x2100#16 with sp := 16#5 } (fun t => (outcome t, t.sp)) =
    some ((0x0202#16, .faulted, .stackOverflow, 0x0200#16), 16#5) := by decide
/-- C14: the slot last pushed. -/
theorem test_ret : after { start 0x0200#16 0x00EE#16 with sp := 2#5, stack := #v[0x0002#16, 0x0ABC#16, 0#16, 0#16, 0#16,
    0#16, 0#16, 0#16, 0#16, 0#16, 0#16, 0#16, 0#16, 0#16, 0#16, 0#16] } (fun t => (t.sp, t.pc, t.slot 1)) =
    some (1#5, 0x0ABC#16, 0x0ABC#16) := by decide
/-- C16. -/
theorem test_ret_underflow : after (start 0x0200#16 0x00EE#16) (fun t => (outcome t, t.sp)) =
    some ((0x0202#16, .faulted, .stackUnderflow, 0x0200#16), 0#5) := by decide

/-- K1. -/
theorem test_seI_equal : after (startWith 0x322A#16 [(2, 0x2A#8)]) (·.pc) = some 0x0204#16 := by decide
/-- K2. -/
theorem test_seI_differ : after (startWith 0x322A#16 [(2, 0x2B#8)]) (·.pc) = some 0x0202#16 := by decide
/-- K6. -/
theorem test_sneI_differ : after (startWith 0x4000#16 [(0, 0x01#8)]) (·.pc) = some 0x0204#16 := by decide
/-- K7. -/
theorem test_sneI_equal : after (startWith 0x42FF#16 [(2, 0xFF#8)]) (·.pc) = some 0x0202#16 := by decide
/-- K8. -/
theorem test_seR_equal : after (startWith 0x5120#16 [(1, 0x0A#8), (2, 0x0A#8)]) (·.pc) = some 0x0204#16 := by decide
/-- K9. -/
theorem test_seR_differ : after (startWith 0x5120#16 [(1, 0x0A#8), (2, 0x0B#8)]) (·.pc) = some 0x0202#16 := by decide
/-- K11. -/
theorem test_sneR_differ : after (startWith 0x9010#16 [(0, 0x05#8), (1, 0x0A#8)]) (·.pc) = some 0x0204#16 := by decide
/-- K12. -/
theorem test_sneR_equal : after (startWith 0x9010#16 [(0, 0x05#8), (1, 0x05#8)]) (·.pc) = some 0x0202#16 := by decide
/-- I1. -/
theorem test_ldI : after (startWith 0x6A55#16 []) (fun t => (t.reg 10, t.reg 15)) =
    some (0x55#8, 0x00#8) := by decide
/-- I4. -/
theorem test_ldI_flag_register : after (startWith 0x6F05#16 []) (fun t => (t.reg 15, t.reg 15)) =
    some (0x05#8, 0x05#8) := by decide
/-- I6. -/
theorem test_addI_wraps_without_flag : after (startWith 0x7205#16 [(2, 0xFE#8)]) (fun t => (t.reg 2, t.reg 15)) =
    some (0x03#8, 0x00#8) := by decide
/-- I11. -/
theorem test_addI_flag_register : after (startWith 0x7F01#16 [(15, 0xFF#8)]) (fun t => (t.reg 15, t.reg 15)) =
    some (0x00#8, 0x00#8) := by decide
/-- A1. -/
theorem test_ldR : after (startWith 0x8010#16 [(0, 0x11#8), (1, 0x0A#8)]) (fun t => (t.reg 0, t.reg 15)) =
    some (0x0A#8, 0x00#8) := by decide
/-- A3. -/
theorem test_ldR_flag_register : after (startWith 0x8F10#16 [(1, 0x77#8), (15, 0x01#8)]) (fun t => (t.reg 15, t.reg 15)) =
    some (0x77#8, 0x77#8) := by decide
/-- A5. -/
theorem test_orR_keeps_flag : after (startWith 0x8011#16 [(0, 0xAA#8), (1, 0x55#8), (15, 0x01#8)]) (fun t => (t.reg 0, t.reg 15)) =
    some (0xFF#8, 0x01#8) := by decide
/-- A6. -/
theorem test_andR : after (startWith 0x8012#16 [(0, 0xF0#8), (1, 0x3C#8)]) (fun t => (t.reg 0, t.reg 15)) =
    some (0x30#8, 0x00#8) := by decide
/-- A8. -/
theorem test_xorR : after (startWith 0x8013#16 [(0, 0xFF#8), (1, 0x0F#8)]) (fun t => (t.reg 0, t.reg 15)) =
    some (0xF0#8, 0x00#8) := by decide
/-- A19. -/
theorem test_addR_flag_as_operand : after (startWith 0x80F4#16 [(0, 0x12#8), (15, 0x01#8)]) (fun t => (t.reg 0, t.reg 15)) =
    some (0x13#8, 0x00#8) := by decide
/-- A21. -/
theorem test_addR_into_flag : after (startWith 0x8F14#16 [(15, 0xF0#8), (1, 0x20#8)]) (fun t => (t.reg 15, t.reg 15)) =
    some (0x01#8, 0x01#8) := by decide
/-- A25. -/
theorem test_subR_borrow : after (startWith 0x8015#16 [(0, 0x05#8), (1, 0x0A#8)]) (fun t => (t.reg 0, t.reg 15)) =
    some (0xFB#8, 0x00#8) := by decide
/-- A26. -/
theorem test_subR_equal : after (startWith 0x8015#16 [(0, 0x07#8), (1, 0x07#8)]) (fun t => (t.reg 0, t.reg 15)) =
    some (0x00#8, 0x01#8) := by decide

/-- F5: no wrapped second byte. -/
theorem test_fetch_0FFF : after { State.resetAt 0x0FFF#16 with status := .running } outcome =
    some (0x0FFF#16, .faulted, .fetchOutOfBounds, 0x0FFF#16) := by decide
/-- U7. -/
theorem test_unknown_opcode : after (start 0x0200#16 0x8016#16) outcome =
    some (0x0202#16, .faulted, .unknownOpcode, 0x8016#16) := by decide
/-- X5: an idle core takes no step. -/
theorem test_idle_core : after State.reset id = some State.reset := by decide
/-- X1, X3: a faulted core refuses `run` and takes `reset`. -/
theorem test_faulted_port :
    hostPort 0#16 .run { State.reset with status := .faulted } = .refused ∧
    hostPort 0#16 .reset { State.reset with status := .faulted } = .accepted State.reset := by decide
/-- P12: the empty program, from the host's launch of the reset state. -/
theorem test_empty_program : (nextState (runMoves 0#16 [.host .run, .core] State.reset)).map outcome =
    some (0x0002#16, .halted, .none, 0#16) := by decide

/-! ## The host's entry points -/

theorem test_decodeTableWord : decodeTableWord 16 0x8014 = some (.addR 0 1) ∧ decodeTableWord 16 0x8016 = none := by decide
/-- A word placed after reset is the first instruction run: I1. -/
theorem test_withFetchWord : after (State.reset.withFetchWord 16 0x6A55) (fun t => (t.reg 10, t.pc)) =
    some (0x55#8, 0x0002#16) := by decide
/-- Where the pc allows no fetch the word is placed at 0. -/
theorem test_withFetchWord_moves_pc : ((State.resetAt 0x0FFF#16).withFetchWord 16 0x00E0).fetch = some 0x00E0#16 := by decide
/-- Writing the unlisted byte removes the entry: equal memories are equal data. -/
theorem test_memory_canonical : Memory.write [(3, 0x6A#8)] 3 0x00#8 = some [] ∧ Memory.write [] 4096 0x01#8 = none := by decide

/-! ## Witnesses: each statement's hypotheses hold together somewhere -/

theorem witness_EncodeDecodeRoundTrip : decodeWord 0x8014#16 = some (.addR 0 1) := by decide
theorem witness_OpcodeMapSelectsInstruction :
    (⟨.addR, 0x8004#16, 0xF00F#16, .xy⟩ : OpRow) ∈ opcodeTable ∧ ∀ r ∈ opcodeTable, 0x8016#16 &&& r.mask ≠ r.pattern := by
  decide
theorem witness_OpcodeRowsDisjoint : ∃ r ∈ opcodeTable, r.selects 0x00EE#16 = true := by decide
theorem witness_UndefinedEncodingsAreFatal : (start 0x0200#16 0x8016#16).status = .running ∧
    (start 0x0200#16 0x8016#16).fetch = some 0x8016#16 ∧ decodeWord 0x8016#16 = none := by decide
/-- The last address that allows a fetch. -/
theorem witness_FetchIsBigEndian : (start 0x0FFE#16 0x00E0#16).pc.toNat ≤ 0x0FFE := by decide
theorem witness_StepRunsDecodedInstruction : (start 0x0FFE#16 0x6A55#16).status = .running ∧
    (start 0x0FFE#16 0x6A55#16).readMem 0x0FFE = some 0x6A#8 ∧ (start 0x0FFE#16 0x6A55#16).readMem 0x0FFF = some 0x55#8 ∧
    decode [0x6A#8, 0x55#8] = .ok (.ldI 10 0x55#8, []) := by decide
/-- The first address that allows none. -/
theorem witness_FetchOutOfBoundsIsFatal : (start 0x0FFF#16 0x0000#16).status = .running ∧
    0x0FFE < (start 0x0FFF#16 0x0000#16).pc.toNat := by decide
theorem witness_StoppedCoreChangesNothing : State.reset.status ≠ .running := by decide
/-- One state of each kind: a run that halts, one that faults, one that goes on. -/
theorem witness_RunEndsByHaltOrFatal :
    after (start 0x0200#16 0x0000#16) State.status = some .halted ∧
    after (start 0x0200#16 0x8016#16) State.status = some .faulted ∧
    after (start 0x0200#16 0x00E0#16) State.status = some .running ∧
    (start 0x0200#16 0x8016#16).fatalCause = .unknownOpcode ∧ (start 0x0200#16 0x00E0#16).fatalCause = .none := by decide
theorem witness_HaltStopsRun : (start 0x0FFE#16 0x0000#16).status = .running ∧
    (start 0x0FFE#16 0x0000#16).fetch = some 0x0000#16 := by decide
theorem witness_ClsIsInert : (start 0x0200#16 0x00E0#16).status = .running ∧
    (start 0x0200#16 0x00E0#16).fetch = some 0x00E0#16 := by decide
/-- The last free slot. -/
theorem witness_CallPushesAndJumps : (State.sp { State.reset with sp := 15#5 }).toNat < 16 := by decide
theorem witness_CallOnFullStackIsFatal : (State.sp { start 0x0200#16 0x2100#16 with sp := 16#5 }).toNat = 16 ∧
    State.fetch { start 0x0200#16 0x2100#16 with sp := 16#5 } = some (0x2#4 ++ 0x100#12) := by decide
/-- The first and the last slot. -/
theorem witness_ReturnPopsPc : ∀ n ∈ [1#5, 16#5], 1 ≤ (State.sp { State.reset with sp := n }).toNat ∧
    (State.sp { State.reset with sp := n }).toNat ≤ 16 := by decide
theorem witness_ReturnOnEmptyStackIsFatal : (start 0x0200#16 0x00EE#16).sp.toNat = 0 ∧
    (start 0x0200#16 0x00EE#16).status = .running ∧ (start 0x0200#16 0x00EE#16).fetch = some 0x00EE#16 := by decide
/-- The least and the greatest absent slot pointer. -/
theorem witness_AbsentSlotStopsCallAndReturn : ∀ n ∈ [17#5, 31#5], 16 < (State.sp { State.reset with sp := n }).toNat := by
  decide
/-- P2a with one call: the state in which its `RET` runs. -/
def inRoutine : State := { start 0x0102#16 0x00EE#16 with sp := 1#5, stack := State.reset.stack.set 0 0x0002#16 }

/-- The call of P2a, and the state in which its `RET` runs. -/
theorem witness_CallReturnRestoresPcAndSp :
    (start 0x0000#16 0x2100#16).status = .running ∧ (start 0x0000#16 0x2100#16).fetch = some (0x2#4 ++ 0x100#12) ∧
    after (start 0x0000#16 0x2100#16) (fun t => (t.sp, t.slot 0)) = some (inRoutine.sp, inRoutine.slot 0) ∧
    inRoutine.status = .running ∧ inRoutine.fetch = some 0x00EE#16 := by decide
/-- K10, K13, A10: both operands the same register. -/
theorem witness_SkipIfRegistersEqual : after (startWith 0x5330#16 [(3, 0x77#8)]) State.pc = some 0x0204#16 := by decide
theorem witness_SkipIfRegistersNotEqual : after (startWith 0x9330#16 [(3, 0x77#8)]) State.pc = some 0x0202#16 := by decide
theorem witness_XorIsBitwiseWithoutFlag : after (startWith 0x8003#16 [(0, 0x5A#8)]) (·.reg 0) = some 0x00#8 := by decide
theorem witness_SkipIfNotEqualImmediate : (nextState (exec (.seI 2 0xFF#8) State.reset)).isSome = true := by decide
/-- A skip that skips and one that does not, at the last address that allows a fetch. -/
theorem witness_SkipAdvancesByFourOrTwo :
    ((start 0x0FFE#16 0x3000#16).status = .running ∧ (start 0x0FFE#16 0x3000#16).fetch = some 0x3000#16 ∧
      decodeWord 0x3000#16 = some (.seI 0 0x00#8) ∧ skipCondition (start 0x0FFE#16 0x3000#16) (.seI 0 0x00#8) = some true) ∧
    ((start 0x0FFE#16 0x4000#16).status = .running ∧ (start 0x0FFE#16 0x4000#16).fetch = some 0x4000#16 ∧
      decodeWord 0x4000#16 = some (.sneI 0 0x00#8) ∧ skipCondition (start 0x0FFE#16 0x4000#16) (.sneI 0 0x00#8) = some false)
    := by decide
/-- Destinations other than the flag register, and the flag register. -/
theorem witness_AddRegistersWithCarryOut : (0 : RegIdx) ≠ 15 ∧ (14 : RegIdx) ≠ 15 := by decide
theorem witness_SubtractRegistersWithNoBorrow : (0 : RegIdx) ≠ 15 ∧ (14 : RegIdx) ≠ 15 := by decide
theorem witness_ArithmeticIsRightInTwosComplement : (0 : RegIdx) ≠ 15 := by decide
/-- The subtraction reads registers 1 and 2 and writes 1 and 15; another register file that agrees on 1 and 2. -/
theorem witness_RegistersReadAndWritten :
    (nextState (exec (.subR 1 2) State.reset)).isSome = true ∧
    ∀ j ∈ readRegisters (.subR 1 2), (State.reset.v.set 7 0x99#8)[j] = State.reset.reg j := by decide
/-- Operands that let every read and write show; the flag register as one of them, and the smallest addend. -/
theorem witness_RegistersReadAndWritten_shown : operandsShow (.subR 1 2) = true ∧ operandsShow (.addR 15 0) = true ∧
    operandsShow (.addI 15 0x01#8) = true ∧ (15 : RegIdx) ∈ writtenRegisters (.subR 1 2) ∧
    (2 : RegIdx) ∈ readRegisters (.subR 1 2) := by decide
/-- Both clauses: one that does not write register 15, one that does. -/
theorem witness_FlagRegisterWrites :
    (nextState (exec (.ldI 14 0x05#8) State.reset)).isSome = true ∧ (15 : RegIdx) ∉ writtenRegisters (.ldI 14 0x05#8) ∧
    (nextState (exec (.addR 15 1) State.reset)).isSome = true ∧ (Instr.addR 15 1).mnemonic = .addR := by decide
theorem witness_CallStackWrites :
    (nextState (exec (.call 0x100#12) State.reset)).map State.sp = some 1#5 ∧
    (nextState (exec .ret State.reset)).map State.sp = some 0#5 ∧
    (nextState (exec .ret { State.reset with sp := 16#5 })).map State.sp = some 15#5 := by decide
theorem witness_RunNeverWritesMemory : (nextState (runSteps 3 (start 0x0200#16 0x1200#16))).isSome = true := by decide
/-- Two cores that agree on the two bytes fetched and differ in the byte after them. -/
theorem witness_OnlyFetchedBytesMatter :
    SameButMemory (start 0x0200#16 0x6A55#16)
      { start 0x0200#16 0x6A55#16 with mem := [(0x200, 0x6A#8), (0x201, 0x55#8), (0x202, 0x01#8)] } ∧
    (∀ a ∈ [0x200, 0x201], Memory.read [(0x200, 0x6A#8), (0x201, 0x55#8), (0x202, 0x01#8)] a =
      (start 0x0200#16 0x6A55#16).readMem a) ∧
    (nextState (step (start 0x0200#16 0x6A55#16))).isSome = true := by decide
/-- A handler that returns, `HALT`, and the two that fail. -/
theorem witness_HandlersWriteOrFail :
    (nextState (exec .cls State.reset)).map State.status = some .idle ∧
    (nextState (exec .halt State.reset)).map State.status = some .halted ∧
    (nextState (exec .ret State.reset)).map State.faultCause = some .stackUnderflow ∧
    (nextState (exec (.call 0x100#12) { State.reset with sp := 16#5 })).map State.faultCause = some .stackOverflow := by
  decide
theorem witness_StepKeepsWellFormed : (start 0x0200#16 0x2100#16).wf ∧ (start 0x0200#16 0x2100#16).faultRecorded ∧
    (nextState (step (start 0x0200#16 0x2100#16))).isSome = true := by decide
/-- A well-formed state that records no cause, and a faulted one that records its cause. -/
theorem witness_EveryHistoryIsWellFormed : (start 0x0200#16 0x2100#16).wf ∧ (start 0x0200#16 0x2100#16).faultRecorded ∧
    (State.reset.raiseFatal .unknownOpcode 0x8016#16).wf ∧ (State.reset.raiseFatal .unknownOpcode 0x8016#16).faultRecorded :=
  by decide
theorem witness_HostPortKeepsWellFormed : State.reset.wf ∧ State.reset.faultRecorded := by decide
/-- A well-formed core at each end of the stack pointer's range. -/
theorem witness_WellFormedCoreNeverStuck : (State.wf { start 0x0200#16 0x00EE#16 with sp := 0#5 }) ∧
    (State.wf { start 0x0200#16 0x2100#16 with sp := 16#5 }) := by decide
/-- The largest pc the core computes. -/
theorem witness_PcNeverWraps : State.pcInRange { start 0x0FFE#16 0x3000#16 with sp := 1#5, pc := 0x1002#16 } ∧
    (start 0x0FFE#16 0x3000#16).pcInRange ∧ (start 0x0FFE#16 0x3000#16).fetch = some 0x3000#16 := by decide
/-- A faulted core, and a history with no reset in it. -/
theorem witness_FaultedUntilReset : State.status { State.reset with status := .faulted } = .faulted ∧
    Move.host .reset ∉ [Move.core, Move.host .run] := by decide
theorem witness_HostRefusedWhileRunningOrFaulted : (start 0x0200#16 0x0000#16).status = .running ∧
    State.status { State.reset with status := .faulted } = .faulted ∧ HostOp.run ≠ .reset := by decide
/-- Idle and halted, with the boundary values of the ranges. -/
theorem witness_HostWritesWhileStopped : State.reset.wf ∧ State.reset.status = .idle ∧
    State.wf { State.reset with status := .halted } ∧ 4095 < 4096 ∧ 4096 ≤ 4096 ∧ 16 ≤ 16 ∧ 16 < 17 := by decide
theorem witness_HostReadsWhileStopped : State.reset.status ≠ .running ∧ State.reset.readMem 4095 = some 0x00#8 ∧
    4096 ≤ 4096 := by decide
theorem witness_MemoryIsPlainStorage : Memory.wf [(3, 0x6A#8)] ∧ 4095 < 4096 := by decide
theorem witness_MemoriesReadingAlikeAreEqual : Memory.wf [(3, 0x6A#8)] ∧
    ∀ a : Nat, Memory.read [(3, 0x6A#8)] a = Memory.read [(3, 0x6A#8)] a := ⟨by decide, fun _ => rfl⟩
theorem witness_PlacedWordIsHostLoad : (0x0FFE#16 : Word).toNat ≤ 0x0FFE ∧ 0xFFFF < 65536 := by decide
/-- A state whose pc allows a fetch and one whose pc does not. -/
theorem witness_PlacedWordIsFetched : Memory.wf State.reset.mem ∧ State.reset.wf ∧
    Memory.wf (State.resetAt 0xFFFF#16).mem ∧ 0xFFFF < 65536 := by decide

end Sys2Proof.Tests
end

section
/-! The registers an instruction reads and writes (10 R13): its equation in terms of the registers it names, what becomes
of it on another register file, and a state in which each read and each write shows. -/

namespace Sys2Proof.Machine

/-! ## The instructions that name a register, by what they do with the values -/

theorem exec_seI (x : RegIdx) (kk : Byte) (s : State) : exec (.seI x kk) s = .next (s.skipIf (s.reg x == kk)) := rfl
theorem exec_sneI (x : RegIdx) (kk : Byte) (s : State) : exec (.sneI x kk) s = .next (s.skipIf (s.reg x != kk)) := rfl
theorem exec_seR (x y : RegIdx) (s : State) : exec (.seR x y) s = .next (s.skipIf (s.reg x == s.reg y)) := rfl
theorem exec_sneR (x y : RegIdx) (s : State) : exec (.sneR x y) s = .next (s.skipIf (s.reg x != s.reg y)) := rfl
theorem exec_ldI (x : RegIdx) (kk : Byte) (s : State) : exec (.ldI x kk) s = .next (s.setReg x kk) := rfl
theorem exec_addI (x : RegIdx) (kk : Byte) (s : State) :
    exec (.addI x kk) s = .next (s.setReg x (addBytes (s.reg x) kk)) := rfl
theorem exec_ldR (x y : RegIdx) (s : State) : exec (.ldR x y) s = .next (s.setReg x (s.reg y)) := rfl
theorem exec_orR (x y : RegIdx) (s : State) : exec (.orR x y) s = .next (s.setReg x (s.reg x ||| s.reg y)) := rfl
theorem exec_andR (x y : RegIdx) (s : State) : exec (.andR x y) s = .next (s.setReg x (s.reg x &&& s.reg y)) := rfl
theorem exec_xorR (x y : RegIdx) (s : State) : exec (.xorR x y) s = .next (s.setReg x (s.reg x ^^^ s.reg y)) := rfl
theorem exec_addR (x y : RegIdx) (s : State) : exec (.addR x y) s =
    .next (s.setResultAndFlag x (addBytes (s.reg x) (s.reg y)) (carryFlag (s.reg x) (s.reg y))) := rfl
theorem exec_subR (x y : RegIdx) (s : State) : exec (.subR x y) s =
    .next (s.setResultAndFlag x (subBytes (s.reg x) (s.reg y)) (noBorrowFlag (s.reg x) (s.reg y))) := rfl

/-! ## Only the registers of the written list change -/

/-- Whatever a handler does, it leaves the registers outside its row's written list. -/
theorem Effect.registers_frame {i : Instr} {s t : State} (h : Effect i s t) :
    SameRegistersBut (writtenRegisters i) s t := by
  cases h with
  | halted | inert | jumped | underflowed | returned | overflowed | called => exact fun _ _ => rfl
  | skipped _ _ c => exact fun j _ => State.reg_congr (State.skipIf_v s c) j
  | wroteOne _ _ x b hw => rw [hw]; exact (setReg_frame s x b).1
  | wroteTwo _ _ x r f hw => rw [hw]; exact (setResultAndFlag_frame s x r f).1

/-! ## The same core with another register file -/

/-- The state with the register file replaced. -/
def State.withRegs (s : State) (v : Vector Byte 16) : State := { s with v := v }

theorem State.reg_withRegs (s : State) (v : Vector Byte 16) (j : RegIdx) : (s.withRegs v).reg j = v[j] := rfl

@[simp] theorem State.withRegs_sp (s : State) (v : Vector Byte 16) : (s.withRegs v).sp = s.sp := rfl

theorem State.pop_withRegs (s : State) (v : Vector Byte 16) :
    (s.withRegs v).pop = s.pop.map fun p => (p.1.withRegs v, p.2) := by
  by_cases h : 1 ≤ s.sp.toNat ∧ s.sp.toNat ≤ 16
  · obtain ⟨h1, h2⟩ := h
    rw [State.pop_eq_some h1 h2]
    exact State.pop_eq_some (s := s.withRegs v) h1 h2
  · have h0 : s.sp.toNat = 0 ∨ 16 < s.sp.toNat := by omega
    rw [State.pop_eq_none h0]
    exact State.pop_eq_none h0

theorem State.push_withRegs (s : State) (v : Vector Byte 16) (w : Word) :
    (s.withRegs v).push w = (s.push w).map (·.withRegs v) := by
  rcases s.push_cases w with ⟨h, e⟩ | ⟨h, e⟩
  · rw [e]; exact dif_pos h
  · rw [e]; exact dif_neg (Nat.not_lt.mpr h)

/-- `RET` does the same on any register file. -/
theorem execRet_withRegs {s t : State} (v : Vector Byte 16) (h : execRet s = .next t) :
    execRet (s.withRegs v) = .next (t.withRegs v) := by
  simp only [execRet, State.withRegs_sp, State.pop_withRegs] at h ⊢
  by_cases h0 : s.sp = 0#5
  · rw [if_pos h0] at h ⊢
    injection h with h
    rw [← h]; rfl
  · rw [if_neg h0] at h ⊢
    cases hp : s.pop with
    | none => simp [hp] at h
    | some p =>
      rw [hp] at h
      injection h with h
      rw [← h]; rfl

/-- `CALL` does the same on any register file. -/
theorem execCall_withRegs {nnn : Addr} {s t : State} (v : Vector Byte 16) (h : execCall nnn s = .next t) :
    execCall nnn (s.withRegs v) = .next (t.withRegs v) := by
  simp only [execCall, State.withRegs_sp, State.push_withRegs] at h ⊢
  by_cases h16 : s.sp = 16#5
  · rw [if_pos h16] at h ⊢
    injection h with h
    rw [← h]; rfl
  · rw [if_neg h16] at h ⊢
    have hpc : (s.withRegs v).pc = s.pc := rfl
    rw [hpc]
    cases hp : s.push s.pc with
    | none => simp [hp] at h
    | some u =>
      rw [hp] at h
      injection h with h
      rw [← h]; rfl

/-- Two states that agree on the listed registers and on everything that is no register. -/
def AgreeOn (written : List RegIdx) (t t' : State) : Prop :=
  (∀ j ∈ written, t'.reg j = t.reg j) ∧ t' = { t with v := t'.v }

theorem agreeOn_withRegs (t : State) (v : Vector Byte 16) : AgreeOn [] t (t.withRegs v) :=
  ⟨fun _ hj => absurd hj List.not_mem_nil, rfl⟩

theorem agreeOn_skipIf (s : State) (v : Vector Byte 16) (c : Bool) :
    AgreeOn [] (s.skipIf c) ((s.withRegs v).skipIf c) := by
  cases c <;> exact ⟨fun _ hj => absurd hj List.not_mem_nil, rfl⟩

theorem agreeOn_setReg (s : State) (v : Vector Byte 16) (x : RegIdx) (b : Byte) :
    AgreeOn [x] (s.setReg x b) ((s.withRegs v).setReg x b) := by
  refine ⟨fun j hj => ?_, rfl⟩
  rw [List.mem_singleton.mp hj, State.reg_setReg_self, State.reg_setReg_self]

theorem agreeOn_setResultAndFlag (s : State) (v : Vector Byte 16) (x : RegIdx) (r f : Byte) :
    AgreeOn [x, 15] (s.setResultAndFlag x r f) ((s.withRegs v).setResultAndFlag x r f) := by
  refine ⟨fun j hj => ?_, rfl⟩
  rw [State.reg_setResultAndFlag, State.reg_setResultAndFlag]
  rcases List.mem_pair.mp hj with rfl | rfl
  · rw [if_pos rfl, if_pos rfl]
  · rfl

/-- On a register file that agrees on the registers it reads, an instruction completes too and leaves the same, but for the
registers it does not write. -/
theorem exec_withRegs {i : Instr} {s t : State} (h : exec i s = .next t) (v : Vector Byte 16)
    (hv : ∀ j ∈ readRegisters i, (s.withRegs v).reg j = s.reg j) :
    ∃ t', exec i (s.withRegs v) = .next t' ∧ AgreeOn (writtenRegisters i) t t' := by
  cases i with
  | halt | cls | jp nnn => injection h with h; exact ⟨_, rfl, h ▸ agreeOn_withRegs _ v⟩
  | ret => exact ⟨_, execRet_withRegs v h, agreeOn_withRegs t v⟩
  | call nnn => exact ⟨_, execCall_withRegs v h, agreeOn_withRegs t v⟩
  | ldI x kk => injection h with h; exact ⟨_, rfl, h ▸ agreeOn_setReg s v x kk⟩
  | seI x kk | sneI x kk =>
    injection h with h
    have hx := hv x List.mem_cons_self
    simp only [exec_seI, exec_sneI, hx]
    exact ⟨_, rfl, h ▸ agreeOn_skipIf s v _⟩
  | seR x y | sneR x y =>
    injection h with h
    have hx := hv x List.mem_cons_self
    have hy := hv y (List.mem_cons_of_mem _ List.mem_cons_self)
    simp only [exec_seR, exec_sneR, hx, hy]
    exact ⟨_, rfl, h ▸ agreeOn_skipIf s v _⟩
  | addI x kk =>
    injection h with h
    have hx := hv x List.mem_cons_self
    rw [exec_addI, hx]
    exact ⟨_, rfl, h ▸ agreeOn_setReg s v x _⟩
  | ldR x y =>
    injection h with h
    have hy := hv y List.mem_cons_self
    rw [exec_ldR, hy]
    exact ⟨_, rfl, h ▸ agreeOn_setReg s v x _⟩
  | orR x y | andR x y | xorR x y =>
    injection h with h
    have hx := hv x List.mem_cons_self
    have hy := hv y (List.mem_cons_of_mem _ List.mem_cons_self)
    simp only [exec_orR, exec_andR, exec_xorR, hx, hy]
    exact ⟨_, rfl, h ▸ agreeOn_setReg s v x _⟩
  | addR x y | subR x y =>
    injection h with h
    have hx := hv x List.mem_cons_self
    have hy := hv y (List.mem_cons_of_mem _ List.mem_cons_self)
    simp only [exec_addR, exec_subR, hx, hy]
    exact ⟨_, rfl, h ▸ agreeOn_setResultAndFlag s v x _ _⟩

/-! ## States in which a write or a read shows -/

/-- The reset state with the same byte in every register. -/
def allRegs (b : Byte) : State := State.reset.withRegs (Vector.replicate 16 b)

@[simp] theorem reg_allRegs (b : Byte) (j : RegIdx) : (allRegs b).reg j = b := by
  rw [allRegs, State.reg_withRegs, Fin.getElem_fin, Vector.getElem_replicate]

@[simp] theorem reg_reset (j : RegIdx) : State.reset.reg j = 0x00#8 := reg_allRegs 0x00#8 j

/-- Some state in which the instruction completes and changes the register. -/
def WriteShows (i : Instr) (j : RegIdx) : Prop := ∃ s t : State, exec i s = .next t ∧ t.reg j ≠ s.reg j

/-- Two states that differ in the pc or in a register of the list. -/
def Differ (written : List RegIdx) (t u : State) : Prop := t.pc ≠ u.pc ∨ ∃ k ∈ written, t.reg k ≠ u.reg k

/-- Some state in which another value of the register makes the instruction leave another pc or write another value. -/
def ReadShows (i : Instr) (j : RegIdx) : Prop :=
  ∃ (s t u : State) (b : Byte), exec i s = .next t ∧ exec i (s.setReg j b) = .next u ∧ Differ (writtenRegisters i) t u

/-- A skip taken and a skip not taken leave different pcs. -/
theorem differ_skipIf (written : List RegIdx) {s s' : State} {c c' : Bool} (hpc : s'.pc = s.pc) (h : c ≠ c') :
    Differ written (s.skipIf c) (s'.skipIf c') := by
  have hne : s.pc + 2#16 ≠ s.pc := by bv_omega
  left
  rw [State.skipIf_pc, State.skipIf_pc, hpc]
  match c, c' with
  | true, false => exact hne
  | false, true => exact hne.symm
  | true, true | false, false => exact absurd rfl h

theorem differ_setReg (s s' : State) (x : RegIdx) {b b' : Byte} (h : b ≠ b') :
    Differ [x] (s.setReg x b) (s'.setReg x b') :=
  .inr ⟨x, List.mem_singleton_self x, by simpa only [State.reg_setReg_self] using h⟩

theorem differ_setResultAndFlag (s s' : State) (x : RegIdx) (r r' : Byte) {f f' : Byte} (h : f ≠ f') :
    Differ [x, 15] (s.setResultAndFlag x r f) (s'.setResultAndFlag x r' f') :=
  .inr ⟨15, by simp, by simpa only [State.reg_setResultAndFlag, Config.flagReg, if_true] using h⟩

/-- A result and a flag that are both new to a register change it if it is one of the two written. -/
theorem reg_setResultAndFlag_ne {s : State} {x j : RegIdx} {r f : Byte} (hj : j ∈ [x, 15]) (hr : r ≠ s.reg j)
    (hf : f ≠ s.reg j) : (s.setResultAndFlag x r f).reg j ≠ s.reg j := by
  rw [State.reg_setResultAndFlag]
  rcases List.mem_pair.mp hj with rfl | rfl
  · split
    · exact hf
    · rwa [if_pos rfl]
  · exact hf

/-- Each register of the written list changes in some state. -/
theorem writeShows_of_operandsShow {i : Instr} (h : operandsShow i = true) {j : RegIdx} (hj : j ∈ writtenRegisters i) :
    WriteShows i j := by
  cases i with
  | halt | cls | ret | jp | call | seI | sneI | seR | sneR => exact absurd hj List.not_mem_nil
  | ldI x kk =>
    obtain rfl := List.mem_singleton.mp hj
    exact ⟨State.reset.setReg j (kk + 1#8), _, rfl, by simp⟩
  | addI x kk =>
    obtain rfl := List.mem_singleton.mp hj
    have hk : kk ≠ 0x00#8 := of_decide_eq_true h
    exact ⟨State.reset, _, exec_addI j kk _, by simp [addBytes_eq, hk]⟩
  | ldR x y | orR x y =>
    obtain rfl := List.mem_singleton.mp hj
    have hxy : j ≠ y := of_decide_eq_true h
    exact ⟨State.reset.setReg y 0x01#8, _, rfl, by simp [State.reg_setReg_ne _ _ hxy]⟩
  | andR x y =>
    obtain rfl := List.mem_singleton.mp hj
    have hyx : y ≠ j := (of_decide_eq_true h : j ≠ y).symm
    exact ⟨State.reset.setReg j 0x01#8, _, rfl, by simp [State.reg_setReg_ne _ _ hyx]⟩
  | xorR x y =>
    obtain rfl := List.mem_singleton.mp hj
    exact ⟨allRegs 0x01#8, _, rfl, by simp⟩
  | addR x y =>
    -- 1 + 1: the sum 2 and the carry 0
    exact ⟨allRegs 0x01#8, _, exec_addR x y _, reg_setResultAndFlag_ne hj
      (by simp only [reg_allRegs]; decide) (by simp only [reg_allRegs]; decide)⟩
  | subR x y =>
    -- 2 - 2: the difference 0 and the no-borrow flag 1
    exact ⟨allRegs 0x02#8, _, exec_subR x y _, reg_setResultAndFlag_ne hj
      (by simp only [reg_allRegs]; decide) (by simp only [reg_allRegs]; decide)⟩

/-- Each register of the read list shows in some state. -/
theorem readShows_of_operandsShow {i : Instr} (h : operandsShow i = true) {j : RegIdx} (hj : j ∈ readRegisters i) :
    ReadShows i j := by
  cases i with
  | halt | cls | ret | jp | call | ldI => exact absurd hj List.not_mem_nil
  | seI x kk | sneI x kk =>
    obtain rfl := List.mem_singleton.mp hj
    exact ⟨State.reset.setReg j kk, _, _, kk + 1#8, rfl, rfl, differ_skipIf _ rfl (by simp)⟩
  | seR x y | sneR x y =>
    -- two zeros are equal, 1 and 0 are not
    have hxy : x ≠ y := of_decide_eq_true h
    refine ⟨State.reset, _, _, 0x01#8, rfl, rfl, differ_skipIf _ rfl ?_⟩
    rcases List.mem_pair.mp hj with rfl | rfl <;> simp [State.reg_setReg, hxy, hxy.symm]
  | addI x kk =>
    obtain rfl := List.mem_singleton.mp hj
    exact ⟨State.reset, _, _, 0x01#8, rfl, rfl, differ_setReg _ _ j (by simp [addBytes_eq])⟩
  | ldR x y =>
    obtain rfl := List.mem_singleton.mp hj
    exact ⟨State.reset, _, _, 0x01#8, rfl, rfl, differ_setReg _ _ x (by simp)⟩
  | orR x y | xorR x y =>
    have hxy : x ≠ y := of_decide_eq_true h
    refine ⟨State.reset, _, _, 0x01#8, rfl, rfl, differ_setReg _ _ x ?_⟩
    rcases List.mem_pair.mp hj with rfl | rfl <;> simp [State.reg_setReg, hxy, hxy.symm]
  | andR x y =>
    refine ⟨allRegs 0x01#8, _, _, 0x00#8, rfl, rfl, differ_setReg _ _ x ?_⟩
    rcases List.mem_pair.mp hj with rfl | rfl <;> simp
  | addR x y =>
    -- 255 + 255 carries, 255 + 0 does not
    have hxy : x ≠ y := of_decide_eq_true h
    refine ⟨allRegs 0xFF#8, _, _, 0x00#8, rfl, rfl, differ_setResultAndFlag _ _ x _ _ ?_⟩
    rcases List.mem_pair.mp hj with rfl | rfl <;> simp [State.reg_setReg, hxy, hxy.symm, carryFlag]
  | subR x y =>
    have hxy : x ≠ y := of_decide_eq_true h
    -- 1 - 1 does not borrow; 0 - 1 and 1 - 2 do
    rcases List.mem_pair.mp hj with rfl | rfl
    · refine ⟨allRegs 0x01#8, _, _, 0x00#8, rfl, rfl, differ_setResultAndFlag _ _ j _ _ ?_⟩
      simp [State.reg_setReg, hxy.symm, noBorrowFlag]
    · refine ⟨allRegs 0x01#8, _, _, 0x02#8, rfl, rfl, differ_setResultAndFlag _ _ x _ _ ?_⟩
      simp [State.reg_setReg, hxy, noBorrowFlag]

/-- Settles O39: the frame is the effect's, the dependence `exec_withRegs`, and each write and read shows. -/
theorem registersReadAndWritten : Obligations.RegistersReadAndWritten :=
  ⟨fun _ _ _ h => ⟨(exec_effect h).registers_frame, exec_withRegs h⟩,
    fun _ h => ⟨fun _ => writeShows_of_operandsShow h, fun _ => readShows_of_operandsShow h⟩⟩

end Sys2Proof.Machine
end

section
/-! Memory as the core sees it (20): a fetch reads a big-endian word (R33), and no step, and so no run, writes memory
(R40). -/

namespace Sys2Proof.Machine

/-! ## The word two bytes make -/

/-- The value of a word, by its two bytes (20 R33). -/
theorem toNat_wordOfBytes (hi lo : Byte) : (wordOfBytes hi lo).toNat = hi.toNat * 256 + lo.toNat := by
  rw [wordOfBytes, BitVec.toNat_append, ← Nat.shiftLeft_add_eq_or_of_lt lo.isLt, Nat.shiftLeft_eq]

/-- Settles O10: in bounds both addresses are below 4096, and the fetch joins the two bytes they hold. -/
theorem fetchIsBigEndian : Obligations.FetchIsBigEndian := by
  intro s h
  rcases s.fetch_cases with ⟨-, hfetch⟩ | ⟨hout, -⟩
  · have hp : s.pc.toNat < Config.memSize := Nat.lt_of_le_of_lt h (by decide)
    have hp1 : s.pc.toNat + 1 < Config.memSize := Nat.lt_of_le_of_lt (Nat.succ_le_succ h) (by decide)
    exact ⟨_, _, _, Memory.read_eq_some hp, Memory.read_eq_some hp1, hfetch, toNat_wordOfBytes _ _⟩
  · exact absurd h (Nat.not_le.mpr hout)

/-! ## What every step keeps, a run keeps -/

/-- A run of `k + 1` steps that answers a next state is a step that does, and a run of `k` steps from there. -/
theorem runSteps_succ_eq_next {k : Nat} {s t : State} (h : runSteps (k + 1) s = .next t) :
    ∃ u, step s = .next u ∧ runSteps k u = .next t := by
  rw [runSteps] at h
  cases hs : step s with
  | next u => exact ⟨u, rfl, by simpa only [hs] using h⟩
  | fault r => simp [hs] at h
  | refused r => simp [hs] at h

/-- A property that every step keeps holds after any run that began with it. -/
theorem runSteps_invariant {P : State → Prop} (hstep : ∀ {s t : State}, step s = .next t → P s → P t) {k : Nat}
    {s t : State} (h : runSteps k s = .next t) (hs : P s) : P t := by
  induction k generalizing s with
  | zero => injection h with h; exact h ▸ hs
  | succ k ih =>
    obtain ⟨u, hu, ht⟩ := runSteps_succ_eq_next h
    exact ih ht (hstep hu hs)

/-! ## Memory is never written -/

/-- Whatever a handler does, memory is the same list of cells. -/
theorem Effect.mem_eq {i : Instr} {s t : State} (h : Effect i s t) : t.mem = s.mem := by
  cases h with
  | halted | inert | jumped | underflowed | returned | overflowed | called | wroteOne | wroteTwo => rfl
  | skipped _ _ c => exact State.skipIf_mem s c

/-- A step leaves memory the same list of cells, whether it stands still, faults or runs a handler. -/
theorem step_mem_eq {s t : State} (h : step s = .next t) : t.mem = s.mem := by
  rcases step_cases s with ⟨-, e⟩ | ⟨-, -, e⟩ | ⟨_, -, -, -, e⟩ | ⟨_, _, -, -, -, e⟩
  · injection e.symm.trans h with h; rw [← h]
  · injection e.symm.trans h with h; rw [← h]; rfl
  · injection e.symm.trans h with h; rw [← h]; rfl
  · exact (exec_effect (e.symm.trans h)).mem_eq

/-- A run leaves memory the same list of cells. -/
theorem runSteps_mem_eq {k : Nat} {s t : State} (h : runSteps k s = .next t) : t.mem = s.mem :=
  runSteps_invariant (P := fun u => u.mem = s.mem) (fun hu hm => (step_mem_eq hu).trans hm) h rfl

/-- Settles O42: memory is the same at the end of a run, so every address reads as before. -/
theorem runNeverWritesMemory : Obligations.RunNeverWritesMemory :=
  fun _ _ _ h => ⟨runSteps_mem_eq h, State.readMem_congr (runSteps_mem_eq h)⟩

end Sys2Proof.Machine
end

section
/-! The opcode map (30): the six fields as unsigned numbers (R51), and the 17 rows as the decoder's own selection (R55).
A row that selects a word fixes its class, and `d` in form XY, so the decoder takes its branch; and a decoded word
is its instruction's encoding, which the row of its mnemonic selects. -/

namespace Sys2Proof

/-! ## The fields as numbers -/

theorem toNat_fieldClass (w : Word) : (fieldClass w).toNat = w.toNat / 4096 := by
  have hw : w.toNat < 65536 := w.isLt
  rw [fieldClass, BitVec.extractLsb'_toNat, Nat.shiftRight_eq_div_pow]
  omega

theorem val_fieldX (w : Word) : (fieldX w).val = w.toNat / 256 % 16 := by
  rw [fieldX, BitVec.val_toFin, BitVec.extractLsb'_toNat, Nat.shiftRight_eq_div_pow]

theorem val_fieldY (w : Word) : (fieldY w).val = w.toNat / 16 % 16 := by
  rw [fieldY, BitVec.val_toFin, BitVec.extractLsb'_toNat, Nat.shiftRight_eq_div_pow]

theorem toNat_fieldD (w : Word) : (fieldD w).toNat = w.toNat % 16 := by
  rw [fieldD, BitVec.extractLsb'_toNat, Nat.shiftRight_zero]

theorem toNat_fieldNnn (w : Word) : (fieldNnn w).toNat = w.toNat % 4096 := by
  rw [fieldNnn, BitVec.extractLsb'_toNat, Nat.shiftRight_zero]

theorem toNat_fieldKk (w : Word) : (fieldKk w).toNat = w.toNat % 256 := by
  rw [fieldKk, BitVec.extractLsb'_toNat, Nat.shiftRight_zero]

/-- Settles O5: a cut of `n` bits from bit `s` is the quotient by `2 ^ s`, modulo `2 ^ n`. -/
theorem fieldsOfOpcode : Obligations.FieldsOfOpcode := fun w =>
  ⟨toNat_fieldClass w, val_fieldX w, val_fieldY w, toNat_fieldD w, toNat_fieldNnn w, toNat_fieldKk w⟩

/-! ## A word is put together from its fields (R51) -/

/-- A word of a class, from its address field. -/
theorem formA_fields {w : Word} {c : Nibble} (hc : fieldClass w = c) : formA c (fieldNnn w) = w := by
  rw [← hc]
  exact (BitVec.extractLsb'_append_extractLsb'_eq_extractLsb' rfl).trans BitVec.extractLsb'_eq_self

/-- A word of a class, from its register and immediate fields. -/
theorem formXK_fields {w : Word} {c : Nibble} (hc : fieldClass w = c) : formXK c (fieldX w) (fieldKk w) = w := by
  have hcx : fieldClass w ++ regField (fieldX w) = w.extractLsb' 8 8 :=
    BitVec.extractLsb'_append_extractLsb'_eq_extractLsb' rfl
  rw [← hc, formXK, hcx]
  exact (BitVec.extractLsb'_append_extractLsb'_eq_extractLsb' rfl).trans BitVec.extractLsb'_eq_self

/-- A word of a class and `d`, from its two register fields. -/
theorem formXY_fields {w : Word} {c d : Nibble} (hc : fieldClass w = c) (hd : fieldD w = d) :
    formXY c (fieldX w) (fieldY w) d = w := by
  have hyd : regField (fieldY w) ++ fieldD w = fieldKk w :=
    BitVec.extractLsb'_append_extractLsb'_eq_extractLsb' rfl
  rw [← hd, formXY, BitVec.append_assoc, BitVec.cast_eq, hyd]
  exact formXK_fields hc

/-! ## A decoded word is its instruction's encoding -/

theorem encode_of_decodeClass0 {w : Word} {i : Instr} (h : decodeClass0 w = some i) : encode i = w := by
  unfold decodeClass0 at h
  split_ifs at h with hw hw hw <;> exact Option.some.inj h ▸ hw.symm

theorem encode_of_decodeClass8 {w : Word} {i : Instr} (hc : fieldClass w = 0x8#4)
    (h : decodeClass8 (fieldX w) (fieldY w) (fieldD w) = some i) : encode i = w := by
  unfold decodeClass8 at h
  split at h <;> rename_i hd
  case h_1 | h_2 | h_3 | h_4 | h_5 | h_6 => exact Option.some.inj h ▸ formXY_fields hc (BitVec.eq_of_toNat_eq hd)
  case h_7 => exact nomatch h

/-- The branch the decoder takes fixes the class, and `d` in form XY; the other fields are the operands. -/
theorem encode_of_decodeWord {w : Word} {i : Instr} (h : decodeWord w = some i) : encode i = w := by
  unfold decodeWord at h
  split at h <;> rename_i hc
  case h_1 => exact encode_of_decodeClass0 h
  -- classes 1, 2: form A
  case h_2 | h_3 => exact Option.some.inj h ▸ formA_fields (BitVec.eq_of_toNat_eq hc)
  -- classes 3, 4, 6, 7: form XK
  case h_4 | h_5 | h_7 | h_8 => exact Option.some.inj h ▸ formXK_fields (BitVec.eq_of_toNat_eq hc)
  -- classes 5, 9: form XY with `d = 0`
  case h_6 | h_10 =>
    split_ifs at h with hd
    exact Option.some.inj h ▸ formXY_fields (BitVec.eq_of_toNat_eq hc) hd
  case h_9 => exact encode_of_decodeClass8 (BitVec.eq_of_toNat_eq hc) h
  -- classes A to F
  case h_11 => exact nomatch h

/-! ## The decoder, class by class -/

section
variable {w : Word}

theorem decodeWord_class1 (hc : fieldClass w = 0x1#4) : decodeWord w = some (.jp (fieldNnn w)) := by
  rw [decodeWord, hc]; rfl
theorem decodeWord_class2 (hc : fieldClass w = 0x2#4) : decodeWord w = some (.call (fieldNnn w)) := by
  rw [decodeWord, hc]; rfl
theorem decodeWord_class3 (hc : fieldClass w = 0x3#4) : decodeWord w = some (.seI (fieldX w) (fieldKk w)) := by
  rw [decodeWord, hc]; rfl
theorem decodeWord_class4 (hc : fieldClass w = 0x4#4) : decodeWord w = some (.sneI (fieldX w) (fieldKk w)) := by
  rw [decodeWord, hc]; rfl
theorem decodeWord_class5 (hc : fieldClass w = 0x5#4) (hd : fieldD w = 0x0#4) :
    decodeWord w = some (.seR (fieldX w) (fieldY w)) := by
  rw [decodeWord, hc, hd]; rfl
theorem decodeWord_class6 (hc : fieldClass w = 0x6#4) : decodeWord w = some (.ldI (fieldX w) (fieldKk w)) := by
  rw [decodeWord, hc]; rfl
theorem decodeWord_class7 (hc : fieldClass w = 0x7#4) : decodeWord w = some (.addI (fieldX w) (fieldKk w)) := by
  rw [decodeWord, hc]; rfl
theorem decodeWord_class8 {d : Nibble} (hc : fieldClass w = 0x8#4) (hd : fieldD w = d) :
    decodeWord w = decodeClass8 (fieldX w) (fieldY w) d := by
  rw [decodeWord, hc, hd]; rfl
theorem decodeWord_class9 (hc : fieldClass w = 0x9#4) (hd : fieldD w = 0x0#4) :
    decodeWord w = some (.sneR (fieldX w) (fieldY w)) := by
  rw [decodeWord, hc, hd]; rfl

end

/-! ## A row's mask fixes what the decoder branches on -/

/-- Where the mask has all ones in the class, the class is the pattern's. -/
theorem fieldClass_of_masked {w mask p : Word} (hm : fieldClass mask = 0xF#4) (h : w &&& mask = p) :
    fieldClass w = fieldClass p := by
  have hand : fieldClass (w &&& mask) = fieldClass w &&& fieldClass mask := BitVec.extractLsb'_and
  rw [← h, hand, hm]
  exact BitVec.and_allOnes.symm

/-- Where the mask has all ones in `d`, `d` is the pattern's. -/
theorem fieldD_of_masked {w mask p : Word} (hm : fieldD mask = 0xF#4) (h : w &&& mask = p) :
    fieldD w = fieldD p := by
  have hand : fieldD (w &&& mask) = fieldD w &&& fieldD mask := BitVec.extractLsb'_and
  rw [← h, hand, hm]
  exact BitVec.and_allOnes.symm

/-- A row of form Z compares all 16 bits. -/
theorem eq_of_masked {w p : Word} (h : w &&& 0xFFFF#16 = p) : w = p := BitVec.and_allOnes.symm.trans h

/-- The word decodes to an instruction with this mnemonic. -/
def DecodesAs (w : Word) (m : Mnemonic) : Prop := ∃ i : Instr, decodeWord w = some i ∧ i.mnemonic = m

/-- A word a row selects decodes to an instruction with the row's mnemonic: the rows in the map's order. -/
theorem decodesAs_of_row (w : Word) : ∀ r ∈ opcodeTable, w &&& r.mask = r.pattern → DecodesAs w r.mnemonic := by
  simp only [opcodeTable, List.forall_mem_cons]
  refine ⟨fun h => ?halt, fun h => ?cls, fun h => ?ret, fun h => ?jp, fun h => ?call, fun h => ?seI, fun h => ?sneI,
    fun h => ?seR, fun h => ?sneR, fun h => ?ldI, fun h => ?addI, fun h => ?ldR, fun h => ?orR, fun h => ?andR,
    fun h => ?xorR, fun h => ?addR, fun h => ?subR, fun _ hr => absurd hr List.not_mem_nil⟩
  case halt | cls | ret => exact ⟨_, congrArg decodeWord (eq_of_masked h), rfl⟩
  case jp => exact ⟨_, decodeWord_class1 (fieldClass_of_masked rfl h), rfl⟩
  case call => exact ⟨_, decodeWord_class2 (fieldClass_of_masked rfl h), rfl⟩
  case seI => exact ⟨_, decodeWord_class3 (fieldClass_of_masked rfl h), rfl⟩
  case sneI => exact ⟨_, decodeWord_class4 (fieldClass_of_masked rfl h), rfl⟩
  case seR => exact ⟨_, decodeWord_class5 (fieldClass_of_masked rfl h) (fieldD_of_masked rfl h), rfl⟩
  case sneR => exact ⟨_, decodeWord_class9 (fieldClass_of_masked rfl h) (fieldD_of_masked rfl h), rfl⟩
  case ldI => exact ⟨_, decodeWord_class6 (fieldClass_of_masked rfl h), rfl⟩
  case addI => exact ⟨_, decodeWord_class7 (fieldClass_of_masked rfl h), rfl⟩
  case ldR | orR | andR | xorR | addR | subR =>
    exact ⟨_, decodeWord_class8 (fieldClass_of_masked rfl h) (fieldD_of_masked rfl h), rfl⟩

/-- Every instruction's encoding is selected by the row of its mnemonic. -/
theorem tableRow (i : Instr) : Laws.TableRow.Statement i :=
  match i with
  | .halt => Laws.TableRow.halt
  | .cls => Laws.TableRow.cls
  | .ret => Laws.TableRow.ret
  | .jp nnn => Laws.TableRow.jp nnn
  | .call nnn => Laws.TableRow.call nnn
  | .seI x kk => Laws.TableRow.seI x kk
  | .sneI x kk => Laws.TableRow.sneI x kk
  | .seR x y => Laws.TableRow.seR x y
  | .sneR x y => Laws.TableRow.sneR x y
  | .ldI x kk => Laws.TableRow.ldI x kk
  | .addI x kk => Laws.TableRow.addI x kk
  | .ldR x y => Laws.TableRow.ldR x y
  | .orR x y => Laws.TableRow.orR x y
  | .andR x y => Laws.TableRow.andR x y
  | .xorR x y => Laws.TableRow.xorR x y
  | .addR x y => Laws.TableRow.addR x y
  | .subR x y => Laws.TableRow.subR x y

/-- A decoded word is selected by a row with its instruction's mnemonic. -/
theorem row_of_decodeWord {w : Word} {i : Instr} (h : decodeWord w = some i) :
    ∃ r ∈ opcodeTable, r.mnemonic = i.mnemonic ∧ w &&& r.mask = r.pattern := by
  obtain ⟨r, hr, hm, -, hsel⟩ := tableRow i
  rw [encode_of_decodeWord h] at hsel
  exact ⟨r, hr, hm, eq_of_beq hsel⟩

theorem opcodeTable_mnemonics_nodup : (opcodeTable.map OpRow.mnemonic).Nodup := by decide

/-- Settles O3: a row's selection is the decoder's branch (`decodesAs_of_row`), and a decoded word's row is the only one
with its mnemonic (`row_of_decodeWord`). -/
theorem opcodeMapSelectsInstruction : Obligations.OpcodeMapSelectsInstruction := by
  refine ⟨rfl, opcodeTable_mnemonics_nodup, fun w r hr => ⟨decodesAs_of_row w r hr, ?_⟩, fun w hnone => ?_⟩
  · rintro ⟨i, hi, hm⟩
    obtain ⟨q, hq, hqm, hsel⟩ := row_of_decodeWord hi
    have hqr : q = r := List.inj_on_of_nodup_map opcodeTable_mnemonics_nodup hq hr (hqm.trans hm)
    exact hqr ▸ hsel
  · rw [Option.eq_none_iff_forall_ne_some]
    intro i hi
    obtain ⟨q, hq, -, hsel⟩ := row_of_decodeWord hi
    exact hnone q hq hsel

end Sys2Proof
end

section
/-! Control flow (41): HALT writes STATUS alone (R80), and JP the pc alone (R83). A fetched word that decodes makes the step
its handler on the advanced state. -/

namespace Sys2Proof.Machine

/-! ## The step of a fetched word -/

/-- A running core that fetches a decodable word runs its handler on the advanced state (40 R66). -/
theorem step_eq_exec {s : State} {op : Word} {i : Instr} (hrun : s.status = .running) (hfetch : s.fetch = some op)
    (hdec : decodeWord op = some i) : step s = exec i s.advance := by
  rw [step_of_running hrun, cycle, hfetch]
  simp only [State.dispatch, hdec]

/-! ## A word of form A is cut into its class and address -/

theorem fieldClass_append (c : Nibble) (nnn : Addr) : fieldClass (c ++ nnn) = c := BitVec.extractLsb'_append_eq_left

theorem fieldNnn_append (c : Nibble) (nnn : Addr) : fieldNnn (c ++ nnn) = nnn := BitVec.extractLsb'_append_eq_right

/-! ## HALT -/

theorem exec_halt (s : State) : exec .halt s = .next (s.setStatus .halted) := rfl

theorem setStatus_frame (s : State) (st : Status) :
    SameRegistersBut [] s (s.setStatus st) ∧ SameMemory s (s.setStatus st) ∧ SameCallStack s (s.setStatus st) ∧
      SameFaultRecord s (s.setStatus st) ∧ (s.setStatus st).pc = s.pc :=
  ⟨fun _ _ => rfl, fun _ => rfl, ⟨fun _ => rfl, rfl⟩, ⟨rfl, rfl⟩, rfl⟩

/-- Settles O15: the handler writes STATUS alone (`setStatus_frame`). A step does so on the advanced state, which has the
pc at `p + 2` and everything else by definition as before. -/
theorem haltStopsRun : Obligations.HaltStopsRun := by
  refine ⟨rfl, fun s => ⟨_, exec_halt s, State.setStatus_status s _, setStatus_frame s _⟩, fun s hrun hfetch => ?_⟩
  have hstep : step s = .next (s.advance.setStatus .halted) :=
    (step_eq_exec hrun hfetch rfl).trans (exec_halt s.advance)
  obtain ⟨hregs, hmem, hstack, hfault, hpc⟩ := setStatus_frame s.advance .halted
  exact ⟨_, hstep, State.setStatus_status _ _, hpc, hregs, hmem, hstack, hfault⟩

/-! ## JP -/

theorem exec_jp (nnn : Addr) (s : State) : exec (.jp nnn) s = .next (s.setPc (targetOf nnn)) := rfl

/-- A jump's target is the address field, extended by zeros (30 R53). -/
theorem toNat_targetOf (nnn : Addr) : (targetOf nnn).toNat = nnn.toNat :=
  BitVec.toNat_setWidth_of_le (by decide)

theorem decodeWord_jp (nnn : Addr) : decodeWord (0x1#4 ++ nnn) = some (.jp nnn) := by
  rw [decodeWord_class1 (fieldClass_append _ nnn), fieldNnn_append]

/-- Settles O17: the handler is one write of the pc, with the zero-extended address. -/
theorem jumpSetsPc : Obligations.JumpSetsPc := fun nnn s =>
  ⟨decodeWord_jp nnn, _, exec_jp nnn s, toNat_targetOf nnn, setPc_frame s _⟩

end Sys2Proof.Machine
end

section
/-! The conditional skips (42). A word of form XK or XY is cut into the fields it was put together from, so the four skip
words decode (R90 to R93); the handlers are one `skipIf` each, which moves the pc by 2 exactly when the condition holds. -/

namespace Sys2Proof.Machine

/-! ## A word of form XK or XY is cut into its fields (30 R52) -/

/-- A register number written into its 4-bit field, as the encoder does it. -/
theorem ofNat_val_eq_regField (x : RegIdx) : BitVec.ofNat 4 x.val = regField x := BitVec.ofFin_eq_ofNat.symm

section
variable (c : Nibble) (x y : RegIdx) (kk : Byte) (d : Nibble)

theorem fieldClass_formXK : fieldClass (formXK c x kk) = c :=
  (BitVec.extractLsb'_append_eq_of_le (by decide)).trans BitVec.extractLsb'_append_eq_left

theorem fieldX_formXK : fieldX (formXK c x kk) = x :=
  congrArg BitVec.toFin ((BitVec.extractLsb'_append_eq_of_le (by decide)).trans BitVec.extractLsb'_append_eq_right)

theorem fieldKk_formXK : fieldKk (formXK c x kk) = kk := BitVec.extractLsb'_append_eq_right

/-- Form XY is form XK with `y` and `d` for the immediate. -/
theorem formXY_eq_formXK : formXY c x y d = formXK c x (regField y ++ d) := by
  rw [formXY, BitVec.append_assoc, BitVec.cast_eq, formXK]

theorem fieldClass_formXY : fieldClass (formXY c x y d) = c := by rw [formXY_eq_formXK, fieldClass_formXK]

theorem fieldX_formXY : fieldX (formXY c x y d) = x := by rw [formXY_eq_formXK, fieldX_formXK]

theorem fieldY_formXY : fieldY (formXY c x y d) = y :=
  congrArg BitVec.toFin ((BitVec.extractLsb'_append_eq_of_le (by decide)).trans BitVec.extractLsb'_append_eq_right)

theorem fieldD_formXY : fieldD (formXY c x y d) = d := BitVec.extractLsb'_append_eq_right

end

/-! ## The four skip words decode -/

theorem decodeWord_seI (x : RegIdx) (kk : Byte) : decodeWord (0x3#4 ++ BitVec.ofNat 4 x.val ++ kk) = some (.seI x kk) := by
  rw [ofNat_val_eq_regField, ← formXK, decodeWord_class3 (fieldClass_formXK _ x kk), fieldX_formXK, fieldKk_formXK]

theorem decodeWord_sneI (x : RegIdx) (kk : Byte) :
    decodeWord (0x4#4 ++ BitVec.ofNat 4 x.val ++ kk) = some (.sneI x kk) := by
  rw [ofNat_val_eq_regField, ← formXK, decodeWord_class4 (fieldClass_formXK _ x kk), fieldX_formXK, fieldKk_formXK]

theorem decodeWord_seR (x y : RegIdx) :
    decodeWord (0x5#4 ++ BitVec.ofNat 4 x.val ++ BitVec.ofNat 4 y.val ++ 0x0#4) = some (.seR x y) := by
  rw [ofNat_val_eq_regField, ofNat_val_eq_regField, ← formXY,
    decodeWord_class5 (fieldClass_formXY _ x y _) (fieldD_formXY _ x y _), fieldX_formXY, fieldY_formXY]

theorem decodeWord_sneR (x y : RegIdx) :
    decodeWord (0x9#4 ++ BitVec.ofNat 4 x.val ++ BitVec.ofNat 4 y.val ++ 0x0#4) = some (.sneR x y) := by
  rw [ofNat_val_eq_regField, ofNat_val_eq_regField, ← formXY,
    decodeWord_class9 (fieldClass_formXY _ x y _) (fieldD_formXY _ x y _), fieldX_formXY, fieldY_formXY]

/-! ## What `skipIf` does to the pc -/

/-- The pc after a skip, by the comparison its condition decides. -/
theorem skipIf_pc_of_iff (s : State) {c : Bool} {p : Prop} [Decidable p] (h : c = true ↔ p) :
    (s.skipIf c).pc = if p then s.pc + 2#16 else s.pc :=
  (State.skipIf_pc s c).trans (if_congr h rfl rfl)

/-- The pc tells whether a skip was taken: adding 2 to a word never gives it back. -/
theorem skipIf_pc_eq_add_two_iff (s : State) (c : Bool) : (s.skipIf c).pc = s.pc + 2#16 ↔ c = true := by
  have hne : s.pc ≠ s.pc + 2#16 := by bv_omega
  cases c with
  | false => exact iff_of_false hne Bool.false_ne_true
  | true => exact iff_of_true rfl rfl

/-! ## The obligations -/

/-- Settles O24: the handler is `skipIf` of the comparison with the immediate. -/
theorem skipIfEqualImmediate : Obligations.SkipIfEqualImmediate := fun x kk s =>
  ⟨decodeWord_seI x kk, _, exec_seI x kk s, skipIf_pc_of_iff s beq_iff_eq, skipIf_frame s _⟩

/-- Settles O25: the handler is `skipIf` of SE_I's condition negated, and the pc tells which of the two skips. -/
theorem skipIfNotEqualImmediate : Obligations.SkipIfNotEqualImmediate := by
  refine fun x kk s => ⟨decodeWord_sneI x kk, _, exec_sneI x kk s, skipIf_pc_of_iff s bne_iff_ne, skipIf_frame s _, ?_⟩
  intro u hu
  obtain rfl := Host.Outcome.next.inj ((exec_seI x kk s).symm.trans hu)
  rw [ne_eq, skipIf_pc_eq_add_two_iff, skipIf_pc_eq_add_two_iff, beq_iff_eq, bne_iff_ne, not_ne_iff]

/-- Settles O26: the handler is `skipIf` of the registers' comparison, which a register with itself passes. -/
theorem skipIfRegistersEqual : Obligations.SkipIfRegistersEqual := by
  refine fun x y s => ⟨decodeWord_seR x y, _, exec_seR x y s, skipIf_pc_of_iff s beq_iff_eq, skipIf_frame s _, ?_⟩
  rintro rfl
  rw [skipIf_pc_eq_add_two_iff, beq_self_eq_true]

/-- Settles O27: the handler is `skipIf` of the registers' difference, which a register never has from itself. -/
theorem skipIfRegistersNotEqual : Obligations.SkipIfRegistersNotEqual := by
  refine fun x y s => ⟨decodeWord_sneR x y, _, exec_sneR x y s, skipIf_pc_of_iff s bne_iff_ne, skipIf_frame s _, ?_⟩
  rintro rfl
  rw [bne_self_eq_false, State.skipIf_pc, if_neg Bool.false_ne_true]

end Sys2Proof.Machine
end

section
/-! The immediate instructions (43). Their words are of form XK, so they decode (R95, R96); each handler is one `setReg` of
the destination, so `setReg_frame` is the whole frame, register 15 included unless it is the destination. -/

namespace Sys2Proof.Machine

/-! ## The two immediate words decode -/

theorem decodeWord_ldI (x : RegIdx) (kk : Byte) : decodeWord (0x6#4 ++ BitVec.ofNat 4 x.val ++ kk) = some (.ldI x kk) := by
  rw [ofNat_val_eq_regField, ← formXK, decodeWord_class6 (fieldClass_formXK _ x kk), fieldX_formXK, fieldKk_formXK]

theorem decodeWord_addI (x : RegIdx) (kk : Byte) :
    decodeWord (0x7#4 ++ BitVec.ofNat 4 x.val ++ kk) = some (.addI x kk) := by
  rw [ofNat_val_eq_regField, ← formXK, decodeWord_class7 (fieldClass_formXK _ x kk), fieldX_formXK, fieldKk_formXK]

/-! ## The truncated sum as an unsigned number -/

theorem toNat_addBytes (a b : Byte) : (addBytes a b).toNat = (a.toNat + b.toNat) % 256 := by
  rw [addBytes_eq, BitVec.toNat_add]

/-! ## The obligations -/

/-- Settles O29: the handler is `setReg` of the immediate. -/
theorem setImmediate : Obligations.SetImmediate := fun x kk s =>
  ⟨decodeWord_ldI x kk, _, exec_ldI x kk s, State.reg_setReg_self s x kk, setReg_frame s x kk⟩

/-- Settles O30: the handler is `setReg` of the truncated sum, and no flag is among its writes. -/
theorem addImmediateWrapsWithoutFlag : Obligations.AddImmediateWrapsWithoutFlag := by
  refine fun x kk s => ⟨decodeWord_addI x kk, _, exec_addI x kk s, ?_, setReg_frame s x _⟩
  rw [State.reg_setReg_self, toNat_addBytes]

end Sys2Proof.Machine
end

section
/-! The copy and the bitwise operations (44). A word of class 8 decodes by its `d` field, so the four words decode (R100 to
R103); each handler is one `setReg` of the destination, so `setReg_frame` is the whole frame, register 15 included unless
it is the destination. -/

namespace Sys2Proof.Machine

/-! ## The register-register words decode -/

/-- A word of class 8 is decoded by its last field, with the two registers it was put together from. -/
theorem decodeWord_registerPair (x y : RegIdx) (d : Nibble) :
    decodeWord (0x8#4 ++ BitVec.ofNat 4 x.val ++ BitVec.ofNat 4 y.val ++ d) = decodeClass8 x y d := by
  rw [ofNat_val_eq_regField, ofNat_val_eq_regField, ← formXY,
    decodeWord_class8 (fieldClass_formXY _ x y d) (fieldD_formXY _ x y d), fieldX_formXY, fieldY_formXY]

/-! ## A copy and its source -/

/-- Copying a register keeps it, also when it is copied onto itself. -/
theorem reg_setReg_of_copy (s : State) (x y : RegIdx) : (s.setReg x (s.reg y)).reg y = s.reg y := by
  rw [State.reg_setReg, ite_self]

/-! ## The obligations -/

/-- Settles O31: the handler is `setReg` of the source's value, which the source keeps. -/
theorem copyRegister : Obligations.CopyRegister := fun x y s =>
  ⟨decodeWord_registerPair x y 0x0#4, _, exec_ldR x y s, State.reg_setReg_self s x _, reg_setReg_of_copy s x y,
    setReg_frame s x _⟩

/-- Settles O32: the handler is `setReg` of the bytes' OR, and no flag is among its writes. -/
theorem orIsBitwiseWithoutFlag : Obligations.OrIsBitwiseWithoutFlag := by
  refine fun x y s => ⟨decodeWord_registerPair x y 0x1#4, _, exec_orR x y s, fun k => ?_, setReg_frame s x _⟩
  rw [State.reg_setReg_self, BitVec.getLsbD_or]

/-- Settles O33: the handler is `setReg` of the bytes' AND, and no flag is among its writes. -/
theorem andIsBitwiseWithoutFlag : Obligations.AndIsBitwiseWithoutFlag := by
  refine fun x y s => ⟨decodeWord_registerPair x y 0x2#4, _, exec_andR x y s, fun k => ?_, setReg_frame s x _⟩
  rw [State.reg_setReg_self, BitVec.getLsbD_and]

/-- Settles O34: the handler is `setReg` of the bytes' exclusive OR, which is zero for a byte with itself; no flag is among
its writes. -/
theorem xorIsBitwiseWithoutFlag : Obligations.XorIsBitwiseWithoutFlag := by
  refine fun x y s => ⟨decodeWord_registerPair x y 0x3#4, _, exec_xorR x y s, fun k => ?_, ?_, setReg_frame s x _⟩
  · rw [State.reg_setReg_self, BitVec.getLsbD_xor]
  · rintro rfl
    rw [State.reg_setReg_self, BitVec.xor_self]

end Sys2Proof.Machine
end

section
/-! Decoding and encoding (30): an instruction's own word decodes to it (R55), which words are undefined and how many they
are (R57), and that fetching one is fatal (60 R140). The rows of the map are disjoint since a word they select decodes as
their mnemonic (R56). -/

namespace Sys2Proof.Machine

/-! ## An encoding decodes to its instruction -/

theorem decodeWord_call (nnn : Addr) : decodeWord (0x2#4 ++ nnn) = some (.call nnn) := by
  rw [decodeWord_class2 (fieldClass_append _ nnn), fieldNnn_append]

/-- The word is of its row's form, whose fields are the operands. -/
theorem decodeWord_encode (i : Instr) : decodeWord (encode i) = some i := by
  cases i with
  | halt | cls | ret => rfl
  | jp nnn => exact decodeWord_jp nnn
  | call nnn => exact decodeWord_call nnn
  | seI x kk | sneI x kk | ldI x kk | addI x kk =>
    simp only [encode, formXK, ← ofNat_val_eq_regField, decodeWord_seI, decodeWord_sneI, decodeWord_ldI, decodeWord_addI]
  | seR x y | sneR x y => simp only [encode, formXY, ← ofNat_val_eq_regField, decodeWord_seR, decodeWord_sneR]
  | ldR x y | orR x y | andR x y | xorR x y | addR x y | subR x y =>
    rw [encode, formXY, ← ofNat_val_eq_regField, ← ofNat_val_eq_regField, decodeWord_registerPair]
    rfl

/-- A word is its high byte before its low byte (20 R33). -/
theorem wordOfBytes_highByte_lowByte (w : Word) : wordOfBytes (highByte w) (lowByte w) = w :=
  (BitVec.extractLsb'_append_extractLsb'_eq_extractLsb' rfl).trans BitVec.extractLsb'_eq_self

/-- Decoding a byte string that begins with a defined word. -/
theorem decode_bytesOfWord_append {w : Word} {i : Instr} (h : decodeWord w = some i) (rest : List Byte) :
    decode (bytesOfWord w ++ rest) = .ok (i, rest) := by
  simp only [bytesOfWord, List.cons_append, List.nil_append, decode, wordOfBytes_highByte_lowByte, h]

/-- Settles O1: every form's word is cut back into its operands (`decodeWord_encode`), and the two bytes join to the word. -/
theorem decodeEncodeRoundTrip : Obligations.DecodeEncodeRoundTrip := fun i rest =>
  ⟨decodeWord_encode i, decode_bytesOfWord_append (decodeWord_encode i) rest⟩

/-- Settles O2: the branch the decoder takes fixes every bit of the word (`encode_of_decodeWord`). -/
theorem encodeDecodeRoundTrip : Obligations.EncodeDecodeRoundTrip := fun _ _ => encode_of_decodeWord

/-! ## The rows of the opcode map -/

/-- Settles O4: a word that two rows select decodes to one instruction, whose mnemonic is each row's, and no mnemonic has
two rows. -/
theorem opcodeRowsDisjoint : Obligations.OpcodeRowsDisjoint := by
  intro w r hr q hq hrw hqw
  obtain ⟨i, hi, hir⟩ := decodesAs_of_row w r hr (eq_of_beq hrw)
  obtain ⟨j, hj, hjq⟩ := decodesAs_of_row w q hq (eq_of_beq hqw)
  obtain rfl : i = j := Option.some.inj (hi.symm.trans hj)
  exact List.inj_on_of_nodup_map opcodeTable_mnemonics_nodup hr hq (hir.symm.trans hjq)

/-- Settles O7: the decoder computes each of the seven words. -/
theorem sampleWordsDecode : Obligations.SampleWordsDecode :=
  ⟨rfl, rfl, rfl, rfl, rfl, rfl, rfl⟩

/-! ## Which words are undefined (R57) -/

/-- R57's list: outside the three words of class 0, by the class and `d`. -/
abbrev Undefined (n : Nat) : Prop :=
  (n / 4096 = 0 ∧ n ≠ 0x0000 ∧ n ≠ 0x00E0 ∧ n ≠ 0x00EE) ∨ (n / 4096 = 5 ∧ 1 ≤ n % 16) ∨
    (n / 4096 = 8 ∧ 6 ≤ n % 16) ∨ (n / 4096 = 9 ∧ 1 ≤ n % 16) ∨ 10 ≤ n / 4096

theorem decodeClass0_eq_none_iff (w : Word) :
    decodeClass0 w = none ↔ w.toNat ≠ 0x0000 ∧ w.toNat ≠ 0x00E0 ∧ w.toNat ≠ 0x00EE := by
  simp only [decodeClass0, ← BitVec.toNat_inj, BitVec.toNat_ofNat, Nat.reducePow, Nat.reduceMod]
  split_ifs <;> simp [*]

theorem decodeClass8_eq_none_iff (x y : RegIdx) (d : Nibble) : decodeClass8 x y d = none ↔ 6 ≤ d.toNat := by
  unfold decodeClass8
  split
  case h_7 => exact iff_of_true rfl (by simp only [imp_false] at *; omega)
  all_goals exact iff_of_false nofun (by omega)

/-- Only `d = 0` of form XY is defined in classes 5 and 9. -/
theorem ite_fieldD_eq_none_iff (w : Word) (i : Instr) :
    (if fieldD w = 0x0#4 then some i else none) = none ↔ 1 ≤ w.toNat % 16 := by
  have hd : fieldD w = 0x0#4 ↔ w.toNat % 16 = 0 := by rw [← toNat_fieldD]; exact BitVec.toNat_inj.symm
  rw [ite_eq_right_iff, hd, imp_iff_not nofun, Nat.one_le_iff_ne_zero]

theorem decodeWord_eq_none_iff (w : Word) : decodeWord w = none ↔ Undefined w.toNat := by
  unfold decodeWord Undefined
  split <;> simp only [toNat_fieldClass, imp_false] at *
  case h_1 => rw [decodeClass0_eq_none_iff]; omega
  case h_6 | h_10 => rw [ite_fieldD_eq_none_iff]; omega
  case h_9 => rw [decodeClass8_eq_none_iff, toNat_fieldD]; omega
  case h_11 => exact iff_of_true trivial (by omega)
  -- classes 1 to 4, 6, 7 have no undefined word
  all_goals exact iff_of_false nofun (by omega)

/-! ## How many words are undefined (R57) -/

/-- A count over `a` blocks of length `b`, block by block. -/
theorem count_mul_eq_sum (p : Nat → Prop) [DecidablePred p] (b a : Nat) :
    Nat.count p (b * a) = ∑ c ∈ Finset.range a, Nat.count (fun k => p (b * c + k)) b := by
  induction a with
  | zero => rfl
  | succ a ih => rw [Nat.mul_succ, Nat.count_add, ih, Finset.sum_range_succ]

/-- The least `d` from which on the words of a class from 1 up are undefined; 16 where none is. -/
def leastUndefinedD (c : Nat) : Nat :=
  if 10 ≤ c then 0 else if c = 5 ∨ c = 9 then 1 else if c = 8 then 6 else 16

theorem undefined_iff_leastUndefinedD_le {c k : Nat} (hc : 1 ≤ c) (hk : k < 4096) :
    Undefined (4096 * c + k) ↔ leastUndefinedD c ≤ k % 16 := by
  unfold Undefined leastUndefinedD
  split_ifs <;> omega

/-- The words of a class whose last digit is at least `m`: 16 - m of every 16. -/
theorem count_le_mod_sixteen {m : Nat} (hm : m ≤ 16) : Nat.count (fun k => m ≤ k % 16) 4096 = 256 * (16 - m) := by
  have hblock (c : Nat) : Nat.count (fun k => m ≤ (16 * c + k) % 16) 16 = 16 - m := by
    simp only [Nat.mul_add_mod]
    interval_cases m <;> rfl
  rw [show 4096 = 16 * 256 from rfl, count_mul_eq_sum, Finset.sum_congr rfl fun c _ => hblock c, Finset.sum_const,
    Finset.card_range, smul_eq_mul]

/-- How many words of a class are undefined. -/
def undefinedInClass (c : Nat) : Nat := Nat.count (fun k => Undefined (4096 * c + k)) 4096

theorem undefinedInClass_eq {c : Nat} (hc : 1 ≤ c) : undefinedInClass c = 256 * (16 - leastUndefinedD c) := by
  have hle : leastUndefinedD c ≤ 16 := by unfold leastUndefinedD; split_ifs <;> omega
  rw [← count_le_mod_sixteen hle]
  exact le_antisymm (Nat.count_mono_left fun k hk => (undefined_iff_leastUndefinedD_le hc hk).mp)
    (Nat.count_mono_left fun k hk => (undefined_iff_leastUndefinedD_le hc hk).mpr)

/-- Class 0 defines three words. -/
theorem undefinedInClass_zero : undefinedInClass 0 = 4093 := by
  have hset : ((Finset.range 4096).filter fun k => Undefined (4096 * 0 + k)) =
      Finset.range 4096 \ {0x0000, 0x00E0, 0x00EE} := by
    ext n
    simp only [Finset.mem_filter, Finset.mem_sdiff, Finset.mem_range, Finset.mem_insert, Finset.mem_singleton, Undefined]
    omega
  rw [undefinedInClass, Nat.count_eq_card_filter_range, hset, Finset.card_sdiff_of_subset, Finset.card_range]
  · rfl
  · intro n
    simp only [Finset.mem_range, Finset.mem_insert, Finset.mem_singleton]
    omega

/-- Class 0, then the other 15 classes by the least undefined `d`; about any `f`, so that no count is ever computed. -/
theorem sum_sixteen_classes {f : Nat → Nat} (h0 : f 0 = 4093)
    (h : ∀ {c}, 1 ≤ c → f c = 256 * (16 - leastUndefinedD c)) :
    ∑ c ∈ Finset.range 16, f c = 38909 := by
  rw [Finset.sum_range_succ', h0, Finset.sum_congr rfl fun c _ => h (Nat.succ_pos c)]
  simp [Finset.sum_range_succ, leastUndefinedD]

theorem count_undefined : Nat.count Undefined (4096 * 16) = 38909 :=
  (count_mul_eq_sum Undefined 4096 16).trans (sum_sixteen_classes undefinedInClass_zero undefinedInClass_eq)

theorem countP_decodeWord_isNone :
    (List.range 65536).countP (fun n => (decodeWord (BitVec.ofNat 16 n)).isNone) = 38909 := by
  rw [← count_undefined, Nat.count, show 4096 * 16 = 65536 from rfl]
  refine List.countP_congr fun n hn => ?_
  rw [Option.isNone_iff_eq_none, decodeWord_eq_none_iff, BitVec.toNat_ofNat, Nat.mod_eq_of_lt (List.mem_range.mp hn),
    decide_eq_true_iff]

/-! ## Fetching an undefined word (60 R140) -/

/-- A running core that fetches an undefined word raises UnknownOpcode on the advanced state. -/
theorem step_eq_unknownOpcode {s : State} {w : Word} (hrun : s.status = .running) (hfetch : s.fetch = some w)
    (hdec : decodeWord w = none) : step s = .next (s.advance.raiseFatal .unknownOpcode w) := by
  rw [step_of_running hrun, cycle, hfetch]
  simp only [State.dispatch, hdec]

/-- Settles O6: the decoder refuses R57's list (`decodeWord_eq_none_iff`), counted class by class, and such a word fetched
raises the fatal condition on the advanced state. -/
theorem undefinedEncodingsAreFatal : Obligations.UndefinedEncodingsAreFatal := by
  refine ⟨fun w => ?_, countP_decodeWord_isNone, fun s w hrun hfetch hdec =>
    ⟨_, step_eq_unknownOpcode hrun hfetch hdec, raiseFatal_frame s.advance .unknownOpcode w⟩⟩
  have hne (v : Word) : w ≠ v ↔ w.toNat ≠ v.toNat := not_congr BitVec.toNat_inj.symm
  rw [decodeWord_eq_none_iff, hne, hne, hne]
  rfl

end Sys2Proof.Machine
end

section
/-! What a handler and a step can do to the fault record (40 R71, 60 R137), the call stack (10 R20, R21), the flag register
(10 R14) and the pc (10 R19), and so the invariants: well-formed states (10 R28) and pcs that never wrap. -/

namespace Sys2Proof.Machine

/-! ## The fault record and STATUS (40 R71) -/

/-- How a handler leaves the record and STATUS: as they were (HALT sets STATUS), or by one of the two fatal conditions. -/
theorem Effect.returns_or_fails {i : Instr} {s t : State} (h : Effect i s t) :
    (SameFaultRecord s t ∧ (t.status = s.status ∨ (i = .halt ∧ t.status = .halted))) ∨
    (i = .ret ∧ FatalEntered .stackUnderflow t.faultInfo s t) ∨
    (i.mnemonic = .call ∧ FatalEntered .stackOverflow t.faultInfo s t) := by
  cases h with
  | halted => exact .inl ⟨⟨rfl, rfl⟩, .inr ⟨rfl, rfl⟩⟩
  | inert | jumped | returned | called | wroteOne | wroteTwo => exact .inl ⟨⟨rfl, rfl⟩, .inl rfl⟩
  | skipped _ _ c =>
    exact .inl ⟨⟨State.skipIf_faultCause s c, State.skipIf_faultInfo s c⟩, .inl (State.skipIf_status s c)⟩
  | underflowed => exact .inr (.inl ⟨rfl, raiseFatal_frame s _ _⟩)
  | overflowed => exact .inr (.inr ⟨rfl, raiseFatal_frame s _ _⟩)

/-- Settles O44: a handler's effect keeps memory, and returns or fails. -/
theorem handlersWriteOrFail : Obligations.HandlersWriteOrFail := fun _ _ _ h =>
  ⟨State.readMem_congr (exec_effect h).mem_eq, (exec_effect h).returns_or_fails⟩

/-- A step of a running core keeps the record and does not fault, or it faults and records a cause. -/
theorem step_goes_on_or_faults {s t : State} (hrun : s.status = .running) (h : step s = .next t) :
    (SameFaultRecord s t ∧ t.status ≠ .faulted) ∨ (t.status = .faulted ∧ t.faultCause ≠ .none) := by
  rcases step_cases s with ⟨hstop, -⟩ | ⟨-, -, e⟩ | ⟨op, -, -, -, e⟩ | ⟨op, i, -, -, -, e⟩
  · exact absurd hrun hstop
  · injection e.symm.trans h with h
    exact h ▸ .inr ⟨rfl, by simp⟩
  · injection e.symm.trans h with h
    exact h ▸ .inr ⟨rfl, by simp⟩
  · rcases (exec_effect (e.symm.trans h)).returns_or_fails with
      ⟨hrec, hst | ⟨-, hst⟩⟩ | ⟨-, hst, hcause, -⟩ | ⟨-, hst, hcause, -⟩
    · exact .inl ⟨hrec, by rw [hst, State.advance_status, hrun]; decide⟩
    · exact .inl ⟨hrec, by rw [hst]; decide⟩
    · exact .inr ⟨hst, by rw [hcause]; decide⟩
    · exact .inr ⟨hst, by rw [hcause]; decide⟩

/-! ## The call stack (10 R20, R21) -/

/-- The slots after one of them is written. -/
theorem slot_of_stack_eq_set {s t : State} {n : Nat} {w : Word} (hn : n < 16) (h : t.stack = s.stack.set n w hn)
    (k : Fin 16) : t.slot k = if k.val = n then w else s.slot k := by
  rw [State.slot_eq, State.slot_eq, h, Fin.getElem_fin, Fin.getElem_fin, Vector.getElem_set]
  exact if_congr eq_comm rfl rfl

theorem toNat_sp_add_one {s : State} (h : s.sp.toNat < 16) : (s.sp + 1#5).toNat = s.sp.toNat + 1 := by
  rw [BitVec.toNat_add, BitVec.toNat_ofNat]
  omega

theorem toNat_sp_sub_one {s : State} (h : 1 ≤ s.sp.toNat) : (s.sp - 1#5).toNat + 1 = s.sp.toNat := by
  have := s.sp.isLt
  rw [BitVec.toNat_sub, BitVec.toNat_ofNat]
  omega

/-- How an instruction may write the call stack: CALL the slot SP, CALL and RET the pointer by one, the others nothing. -/
def CallStackRule (i : Instr) (s t : State) : Prop :=
  (i.mnemonic ≠ .call → ∀ k : Fin 16, t.slot k = s.slot k) ∧
  (∀ k : Fin 16, k.val ≠ s.sp.toNat → t.slot k = s.slot k) ∧
  (i.mnemonic ≠ .call → i.mnemonic ≠ .ret → t.sp = s.sp) ∧
  (i.mnemonic = .call → t.sp = s.sp ∨ t.sp.toNat = s.sp.toNat + 1) ∧
  (i.mnemonic = .ret → t.sp = s.sp ∨ t.sp.toNat + 1 = s.sp.toNat)

theorem callStackRule_of_kept {i : Instr} {s t : State} (hstack : t.stack = s.stack) (hsp : t.sp = s.sp) :
    CallStackRule i s t :=
  ⟨fun _ => State.slot_congr hstack, fun k _ => State.slot_congr hstack k, fun _ _ => hsp, fun _ => .inl hsp,
    fun _ => .inl hsp⟩

theorem Effect.callStackRule {i : Instr} {s t : State} (h : Effect i s t) : CallStackRule i s t := by
  cases h with
  | halted | inert | jumped | underflowed | overflowed | wroteOne | wroteTwo => exact callStackRule_of_kept rfl rfl
  | skipped _ _ c => exact callStackRule_of_kept (State.skipIf_stack s c) (State.skipIf_sp s c)
  | returned _ h1 =>
    exact ⟨fun _ _ => rfl, fun _ _ => rfl, fun _ hret => absurd rfl hret, nofun, fun _ => .inr (toNat_sp_sub_one h1)⟩
  | called _ _ hfree =>
    exact ⟨fun hcall => absurd rfl hcall, fun k hk => (slot_of_stack_eq_set hfree rfl k).trans (if_neg hk),
      fun hcall => absurd rfl hcall, fun _ => .inr (toNat_sp_add_one hfree), nofun⟩

/-- Settles O41: a handler's effect keeps the rule, RET's and CALL's cases being the two that write. -/
theorem callStackWrites : Obligations.CallStackWrites := fun _ _ _ h => (exec_effect h).callStackRule

/-- No handler counts past the 16 slots. -/
theorem Effect.sp_le {i : Instr} {s t : State} (h : Effect i s t) (hs : s.sp.toNat ≤ 16) : t.sp.toNat ≤ 16 := by
  cases h with
  | halted | inert | jumped | underflowed | overflowed | wroteOne | wroteTwo => exact hs
  | skipped _ _ c => rwa [State.skipIf_sp]
  | returned _ h1 =>
    have hpop : (s.sp - 1#5).toNat + 1 = s.sp.toNat := toNat_sp_sub_one h1
    exact Nat.le_of_succ_le (hpop.trans_le hs)
  | called _ _ hfree => exact (toNat_sp_add_one hfree).trans_le hfree

theorem step_sp_le {s t : State} (h : step s = .next t) (hs : s.sp.toNat ≤ 16) : t.sp.toNat ≤ 16 := by
  rcases step_cases s with ⟨-, e⟩ | ⟨-, -, e⟩ | ⟨_, -, -, -, e⟩ | ⟨_, _, -, -, -, e⟩
  · injection e.symm.trans h with h; exact h ▸ hs
  · injection e.symm.trans h with h; exact h ▸ hs
  · injection e.symm.trans h with h; exact h ▸ hs
  · exact (exec_effect (e.symm.trans h)).sp_le hs

/-! ## The flag register (10 R14) -/

theorem reg_flag_setResultAndFlag (s : State) (x : RegIdx) (r f : Byte) : (s.setResultAndFlag x r f).reg 15 = f := by
  rw [State.reg_setResultAndFlag, if_pos rfl]

theorem carryFlag_bit (a b : Byte) : carryFlag a b = 0x00#8 ∨ carryFlag a b = 0x01#8 :=
  (carryFlag_cases a b).symm.imp And.right And.right

theorem noBorrowFlag_bit (a b : Byte) : noBorrowFlag a b = 0x00#8 ∨ noBorrowFlag a b = 0x01#8 :=
  (noBorrowFlag_cases a b).imp And.right And.right

/-- Settles O40: the frame of an effect covers register 15 where it is no destination, and ADD_R and SUB_R leave their
flag there. -/
theorem flagRegisterWrites : Obligations.FlagRegisterWrites := by
  refine fun i s t h => ⟨fun ⟨_, _, hdst⟩ => (exec_effect h).registers_frame 15 hdst, fun hi => ?_⟩
  cases i with
  | addR x y =>
    obtain rfl := Host.Outcome.next.inj ((exec_addR x y s).symm.trans h)
    rw [reg_flag_setResultAndFlag]
    exact carryFlag_bit _ _
  | subR x y =>
    obtain rfl := Host.Outcome.next.inj ((exec_subR x y s).symm.trans h)
    rw [reg_flag_setResultAndFlag]
    exact noBorrowFlag_bit _ _
  | _ => exact hi.elim nofun nofun

/-! ## Well-formed states (10 R28) -/

/-- Settles O45: SP stays within 16, memory is not written, and the record of a running core is kept or becomes a fault's. -/
theorem stepKeepsWellFormed : Obligations.StepKeepsWellFormed := by
  rintro s t ⟨hsp, hrec, hmem⟩ h
  by_cases hrun : s.status = .running
  · obtain ⟨hcause, hinfo⟩ := hrec (by rw [hrun]; decide)
    have hmem' : Memory.wf t.mem := (step_mem_eq h).symm ▸ hmem
    rcases step_goes_on_or_faults hrun h with ⟨⟨hc, hi⟩, hst⟩ | ⟨hst, hc⟩
    · exact ⟨⟨step_sp_le h hsp, fun _ => ⟨hc.trans hcause, hi.trans hinfo⟩, hmem'⟩,
        fun _ => iff_of_false (not_not_intro (hc.trans hcause)) hst⟩
    · exact ⟨⟨step_sp_le h hsp, fun hne => absurd hst hne, hmem'⟩, fun _ => iff_of_true hc hst⟩
  · obtain rfl := Host.Outcome.next.inj ((step_of_not_running hrun).symm.trans h)
    exact ⟨⟨hsp, hrec, hmem⟩, id⟩

/-! ## The pc and the saved pcs (10 R19) -/

/-- From a pc that an advance left, a handler leaves the pc and the slots in use in range: a jump's target is below 0x1000,
a skip adds 2, RET takes a slot in use, and CALL saves the advanced pc. -/
theorem Effect.pcInRange {i : Instr} {s t : State} (h : Effect i s t) (hpc : s.pc.toNat ≤ 0x1000)
    (hs : s.slotsInRange) : t.pcInRange := by
  have hpc' : s.pc.toNat ≤ 0x1002 := hpc.trans (by decide)
  have htarget (nnn : Addr) : (targetOf nnn).toNat ≤ 0x1002 := by
    have := nnn.isLt
    rw [toNat_targetOf]
    omega
  cases h with
  | halted | inert | underflowed | overflowed | wroteOne | wroteTwo => exact ⟨hpc', hs⟩
  | jumped _ nnn => exact ⟨htarget nnn, hs⟩
  | skipped _ _ c =>
    cases c with
    | false => exact ⟨hpc', hs⟩
    | true => exact ⟨by rw [State.skipIf_pc, if_pos rfl, BitVec.toNat_add, BitVec.toNat_ofNat]; omega, hs⟩
  | returned _ h1 h2 =>
    have hpop : (s.sp - 1#5).toNat + 1 = s.sp.toNat := toNat_sp_sub_one h1
    exact ⟨(hs _ (Nat.sub_one_lt_of_lt h1)).trans (by decide),
      fun k hk => hs k (hk.trans (Nat.lt_of_succ_le hpop.le))⟩
  | called _ nnn hfree =>
    refine ⟨htarget nnn, fun k hk => ?_⟩
    rw [slot_of_stack_eq_set hfree rfl k]
    have hpush : k.val < s.sp.toNat + 1 := (toNat_sp_add_one hfree) ▸ hk
    split
    · exact hpc
    · next hne => exact hs k (by omega)

/-- An advance after a fetch does not wrap. -/
theorem toNat_pc_advance_of_fetch {s : State} {op : Word} (h : s.fetch = some op) :
    (s.pc + 2#16).toNat = s.pc.toNat + 2 ∧ s.pc.toNat + 2 ≤ 0x1000 := by
  rcases s.fetch_cases with ⟨hpc, -⟩ | ⟨-, hnone⟩
  · have hpc : s.pc.toNat ≤ 0x0FFE := hpc
    rw [BitVec.toNat_add, BitVec.toNat_ofNat]
    omega
  · exact absurd (hnone.symm.trans h) nofun

/-- Settles O50: a fetch bounds the advanced pc by 0x1000, from which every handler leaves pc and slots in range; the fatal
conditions of the cycle write neither. -/
theorem pcNeverWraps : Obligations.PcNeverWraps := by
  rintro s t ⟨hpc, hslots⟩ h
  refine ⟨?_, fun op hfetch => toNat_pc_advance_of_fetch hfetch⟩
  rcases step_cases s with ⟨-, e⟩ | ⟨-, -, e⟩ | ⟨op, -, hfetch, -, e⟩ | ⟨op, i, -, hfetch, -, e⟩
  · injection e.symm.trans h with h; exact h ▸ ⟨hpc, hslots⟩
  · injection e.symm.trans h with h; exact h ▸ ⟨hpc, hslots⟩
  all_goals
    obtain ⟨hadd, hle⟩ := toNat_pc_advance_of_fetch hfetch
    have hadv : s.advance.pc.toNat ≤ 0x1000 := hadd.trans_le hle
  · injection e.symm.trans h with h; exact h ▸ ⟨hadv.trans (by decide), hslots⟩
  · exact (exec_effect (e.symm.trans h)).pcInRange hadv hslots

end Sys2Proof.Machine
end

section
/-! Memory as plain storage (20 R38, R41), the canonical form that makes reading alike the same as being equal, and the
placing of a word for the next fetch (log entries 2, 6, 7). -/

namespace Sys2Proof.Machine

/-! ## Reads and writes -/

theorem Memory.read_congr_byteAt {m m' : Memory} {a : Nat} (h : Memory.byteAt m' a = Memory.byteAt m a) :
    Memory.read m' a = Memory.read m a := by
  rw [Memory.read, Memory.read, h]

theorem Memory.read_setByte_self {m : Memory} (hm : Memory.wf m) {a : Nat} (ha : a < 4096) (b : Byte) :
    Memory.read (Memory.setByte m a b) a = some b := by
  rw [Memory.read_eq_some ha, Memory.byteAt_setByte_self hm]

theorem Memory.read_setByte_ne (m : Memory) {a c : Nat} (b : Byte) (h : c ≠ a) :
    Memory.read (Memory.setByte m a b) c = Memory.read m c :=
  Memory.read_congr_byteAt (Memory.byteAt_setByte_ne m b h)

/-- Settles O57: the write sets one byte of the list and keeps its form. -/
theorem memoryIsPlainStorage : Obligations.MemoryIsPlainStorage := fun m _ b hm ha =>
  ⟨_, if_pos ha, Memory.read_setByte_self hm ha b, fun _ hc => Memory.read_setByte_ne m b hc,
    Memory.setByte_wf hm ha b⟩

/-! ## The canonical form -/

theorem Memory.byteAt_eq_unlisted {m : Memory} {a : Nat} (h : ∀ c ∈ m, c.1 ≠ a) :
    Memory.byteAt m a = Memory.unlisted := by
  induction m with
  | nil => rfl
  | cons c rest ih =>
    obtain ⟨hc, hrest⟩ := List.forall_mem_cons.mp h
    rw [Memory.byteAt, if_neg (Ne.symm hc), ih hrest]

theorem Memory.byteAt_cons_self (c : Host.Cell) (m : Memory) : Memory.byteAt (c :: m) c.1 = c.2 := if_pos rfl

theorem Memory.byteAt_cons_ne {c : Host.Cell} {a : Nat} (m : Memory) (h : a ≠ c.1) :
    Memory.byteAt (c :: m) a = Memory.byteAt m a := if_neg h

/-- The form of a list with a first cell: the cell is listed rightly, it is below the others, and they have the form. -/
theorem Memory.wf_cons_iff {c : Host.Cell} {m : Memory} :
    Memory.wf (c :: m) ↔ (c.1 < Config.memSize ∧ c.2 ≠ Memory.unlisted) ∧ (∀ d ∈ m, c.1 < d.1) ∧ Memory.wf m := by
  rw [Memory.wf, List.pairwise_cons, List.forall_mem_cons]
  tauto

/-- A cell below all of a memory's cells tells it from every memory that lists it. -/
theorem Memory.byteAt_ne_of_below {c : Host.Cell} {m m' : Memory} (hm : Memory.wf (c :: m))
    (hbelow : ∀ d ∈ m', c.1 < d.1) : Memory.byteAt (c :: m) c.1 ≠ Memory.byteAt m' c.1 := by
  obtain ⟨⟨-, hc⟩, -⟩ := Memory.wf_cons_iff.mp hm
  rwa [Memory.byteAt_cons_self, Memory.byteAt_eq_unlisted fun d hd => (hbelow d hd).ne']

/-- Two canonical memories with the same byte at every number: their first cells are the same, and so the rest. -/
theorem Memory.eq_of_byteAt_eq {m m' : Memory} (hm : Memory.wf m) (hm' : Memory.wf m')
    (h : ∀ a, Memory.byteAt m a = Memory.byteAt m' a) : m = m' := by
  induction m generalizing m' with
  | nil =>
    cases m' with
    | nil => rfl
    | cons c' m' => exact absurd (h c'.1).symm (Memory.byteAt_ne_of_below hm' (by simp))
  | cons c m ih =>
    cases m' with
    | nil => exact absurd (h c.1) (Memory.byteAt_ne_of_below hm (by simp))
    | cons c' m' =>
      obtain ⟨-, hlow, hwf⟩ := Memory.wf_cons_iff.mp hm
      obtain ⟨-, hlow', hwf'⟩ := Memory.wf_cons_iff.mp hm'
      rcases lt_trichotomy c.1 c'.1 with hlt | heq | hgt
      · have hbelow : ∀ d ∈ c' :: m', c.1 < d.1 := List.forall_mem_cons.mpr ⟨hlt, fun d hd => hlt.trans (hlow' d hd)⟩
        exact absurd (h c.1) (Memory.byteAt_ne_of_below hm hbelow)
      · have hbyte : c.2 = c'.2 := by
          have hfirst := h c.1
          rwa [Memory.byteAt_cons_self, heq, Memory.byteAt_cons_self] at hfirst
        have hrest (a : Nat) : Memory.byteAt m a = Memory.byteAt m' a := by
          by_cases ha : a = c.1
          · rw [Memory.byteAt_eq_unlisted fun d hd => ha ▸ (hlow d hd).ne',
              Memory.byteAt_eq_unlisted fun d hd => ha.trans heq ▸ (hlow' d hd).ne']
          · rw [← Memory.byteAt_cons_ne m ha, h a, Memory.byteAt_cons_ne m' (heq ▸ ha)]
        rw [Prod.ext heq hbyte, ih hwf hwf' hrest]
      · have hbelow : ∀ d ∈ c :: m, c'.1 < d.1 := List.forall_mem_cons.mpr ⟨hgt, fun d hd => hgt.trans (hlow d hd)⟩
        exact absurd (h c'.1).symm (Memory.byteAt_ne_of_below hm' hbelow)

/-- A canonical memory lists no number outside the memory. -/
theorem Memory.byteAt_of_memSize_le {m : Memory} (hm : Memory.wf m) {a : Nat} (ha : Config.memSize ≤ a) :
    Memory.byteAt m a = Memory.unlisted := by
  obtain ⟨-, hcells⟩ := hm
  refine Memory.byteAt_eq_unlisted fun c hc => ?_
  obtain ⟨hc, -⟩ := hcells c hc
  exact (hc.trans_le ha).ne

/-- Settles O58: reading alike is having the same byte at every number, those outside the memory being unlisted. -/
theorem memoriesReadingAlikeAreEqual : Obligations.MemoriesReadingAlikeAreEqual := by
  refine fun m m' hm hm' h => Memory.eq_of_byteAt_eq hm hm' fun a => ?_
  rcases Nat.lt_or_ge a Config.memSize with ha | ha
  · exact Option.some.inj ((Memory.read_eq_some ha).symm.trans ((h a).trans (Memory.read_eq_some ha)))
  · rw [Memory.byteAt_of_memSize_le hm ha, Memory.byteAt_of_memSize_le hm' ha]

/-! ## The word placed for the next fetch -/

theorem tableWord_sixteen {w : Nat} (hw : w < 65536) : tableWord 16 w = BitVec.ofNat 16 w := by
  rw [tableWord, Nat.mod_eq_of_lt (show w < 2 ^ 16 from hw)]

/-- The pc a word is placed at allows a fetch. -/
theorem placeForFetch_pc_le (s : State) (op : Word) : (s.placeForFetch op).pc.toNat ≤ Config.lastFetch := by
  change (if fetchOk s.pc then s.pc else 0x0000#16 : Word).toNat ≤ Config.lastFetch
  split
  · next hok => exact (fetchOk_iff _).mp hok
  · decide

theorem placeForFetch_mem (s : State) (op : Word) : (s.placeForFetch op).mem =
    Memory.setBytes s.mem (s.placeForFetch op).pc.toNat (bytesOfWord op) := rfl

/-- A word written as two bytes reads back as its high byte and then its low byte. -/
theorem byteAt_setBytes_bytesOfWord {m : Memory} (hm : Memory.wf m) {a : Nat} (ha : a < Config.memSize) (op : Word) :
    Memory.byteAt (Memory.setBytes m a (bytesOfWord op)) a = highByte op ∧
    Memory.byteAt (Memory.setBytes m a (bytesOfWord op)) (a + 1) = lowByte op := by
  rw [bytesOfWord, Memory.setBytes, Memory.setBytes, Memory.setBytes]
  exact ⟨(Memory.byteAt_setByte_ne _ _ (Nat.ne_of_lt (Nat.lt_succ_self a))).trans (Memory.byteAt_setByte_self hm a _),
    Memory.byteAt_setByte_self (Memory.setByte_wf hm ha _) (a + 1) _⟩

theorem fetch_placeForFetch {s : State} (hm : Memory.wf s.mem) (op : Word) : (s.placeForFetch op).fetch = some op := by
  have hpc := placeForFetch_pc_le s op
  rcases (s.placeForFetch op).fetch_cases with ⟨-, hfetch⟩ | ⟨hout, -⟩
  · obtain ⟨hhi, hlo⟩ := byteAt_setBytes_bytesOfWord hm (Nat.lt_of_le_of_lt hpc (by decide)) op
    rw [hfetch, placeForFetch_mem, hhi, hlo, wordOfBytes_highByte_lowByte]
  · exact absurd hpc (Nat.not_le.mpr hout)

theorem placeForFetch_wf {s : State} (hs : s.wf) (op : Word) : (s.placeForFetch op).wf := by
  obtain ⟨hsp, -, hmem⟩ := hs
  have hpc : (s.placeForFetch op).pc.toNat ≤ 0x0FFE := placeForFetch_pc_le s op
  have hroom : (s.placeForFetch op).pc.toNat + 2 ≤ 4096 := by omega
  exact ⟨hsp, fun _ => ⟨rfl, rfl⟩, Memory.setBytes_wf (bytes := bytesOfWord op) hmem hroom⟩

/-- Settles O60: the two bytes are written at a pc that allows a fetch, and the fetch joins them again. -/
theorem placedWordIsFetched : Obligations.PlacedWordIsFetched := by
  intro s w hm hw
  rw [State.withFetchWord, tableWord_sixteen hw]
  exact ⟨rfl, fetch_placeForFetch hm _, fun hs => placeForFetch_wf hs _⟩

end Sys2Proof.Machine
end

section
/-! The host port (50 R126 to R130): when it accepts, what each of its rows writes, and that it keeps well-formed states. -/

namespace Sys2Proof.Machine

/-! ## When the port accepts -/

theorem hostMayWrite_iff (s : State) : s.hostMayWrite = true ↔ s.status = .idle ∨ s.status = .halted := by
  cases h : s.status <;> simp [State.hostMayWrite, h]

theorem hostMayRead_iff (s : State) : s.hostMayRead = true ↔ s.status ≠ .running := by
  cases h : s.status <;> simp [State.hostMayRead, h]

theorem hostWrite_some {s : State} (h : s.hostMayWrite = true) (t : State) : s.hostWrite (some t) = .accepted t :=
  if_pos h

theorem hostWrite_none (s : State) : s.hostWrite none = .refused := by
  rw [State.hostWrite, ite_self]

theorem hostWrite_of_not {s : State} (h : ¬ s.hostMayWrite = true) (write : Option State) :
    s.hostWrite write = .refused := if_neg h

theorem hostRead_eq_element {s : State} (h : s.status ≠ .running) (q : ReadOp) : hostRead q s = s.element q :=
  if_pos ((hostMayRead_iff s).mpr h)

/-! ## The rows of the port -/

theorem hostPort_writeReg (p : Word) (i : RegIdx) (b : Byte) (s : State) :
    hostPort p (.writeReg i b) s = s.hostWrite (some (s.setReg i b)) := rfl
theorem hostPort_writePc (p w : Word) (s : State) : hostPort p (.writePc w) s = s.hostWrite (some (s.setPc w)) := rfl
theorem hostPort_writeStack (p : Word) (k : Fin 16) (w : Word) (s : State) :
    hostPort p (.writeStack k w) s = s.hostWrite (some { s with stack := s.stack.set k w }) := rfl
theorem hostPort_run (p : Word) (s : State) : hostPort p .run s = s.hostWrite (some (s.setStatus .running)) := rfl

/-- Every row but reset is a write that needs an idle or halted core. -/
theorem hostPort_eq_hostWrite (p : Word) {op : HostOp} (s : State) (h : op ≠ .reset) :
    ∃ write, hostPort p op s = s.hostWrite write := by
  cases op with
  | reset => exact absurd rfl h
  | writeMem a b => exact ⟨_, rfl⟩
  | writeReg i b => exact ⟨_, hostPort_writeReg p i b s⟩
  | writePc w => exact ⟨_, hostPort_writePc p w s⟩
  | writeStack k w => exact ⟨_, hostPort_writeStack p k w s⟩
  | writeSp n => exact ⟨_, rfl⟩
  | run => exact ⟨_, hostPort_run p s⟩

theorem hostPort_writeMem {p : Word} {s : State} {a : Nat} (h : s.hostMayWrite = true) (ha : a < 4096) (b : Byte) :
    hostPort p (.writeMem a b) s = .accepted { s with mem := Memory.setByte s.mem a b } := by
  have hwrite : Memory.write s.mem a b = some (Memory.setByte s.mem a b) := if_pos ha
  rw [hostPort, hwrite]
  exact hostWrite_some h _

theorem hostPort_writeMem_refused (p : Word) (s : State) {a : Nat} (ha : 4096 ≤ a) (b : Byte) :
    hostPort p (.writeMem a b) s = .refused := by
  have hwrite : Memory.write s.mem a b = none := if_neg (Nat.not_lt.mpr ha)
  rw [hostPort, hwrite]
  exact hostWrite_none s

theorem hostPort_writeSp {p : Word} {s : State} {n : Nat} (h : s.hostMayWrite = true) (hn : n ≤ 16) :
    hostPort p (.writeSp n) s = .accepted { s with sp := BitVec.ofNat 5 n } := by
  rw [hostPort, if_pos hn]
  exact hostWrite_some h _

theorem hostPort_writeSp_refused (p : Word) (s : State) {n : Nat} (hn : 16 < n) :
    hostPort p (.writeSp n) s = .refused := by
  rw [hostPort, if_neg (Nat.not_le.mpr hn)]
  exact hostWrite_none s

theorem toNat_ofNat_sp {n : Nat} (hn : n ≤ 16) : (BitVec.ofNat 5 n).toNat = n :=
  Nat.mod_eq_of_lt (Nat.lt_of_le_of_lt hn (by decide))

/-! ## The obligations about single operations -/

/-- Settles O53: the reset is accepted in every state, and every cell of the reset memory is unlisted. -/
theorem resetValues : Obligations.ResetValues := by
  refine fun startPc s => ⟨State.resetAt startPc, rfl, fun i => ?_, fun a ha => if_pos ha, rfl, fun k => ?_, rfl, rfl,
    rfl, rfl⟩
  · rw [State.reg_eq, State.resetAt_v, Fin.getElem_fin, Vector.getElem_replicate]
  · rw [State.slot_eq, State.resetAt_stack, Fin.getElem_fin, Vector.getElem_replicate]

/-- Settles O54: every operation but reset goes through `hostWrite`, which refuses a running or faulted core. -/
theorem hostRefusedWhileRunningOrFaulted : Obligations.HostRefusedWhileRunningOrFaulted := by
  refine fun startPc op s => ⟨fun hst hop => ?_, fun hrun q => ?_⟩
  · have hno : ¬ s.hostMayWrite = true := by
      rw [hostMayWrite_iff]
      rcases hst with hst | hst <;> rw [hst] <;> decide
    obtain ⟨write, hwrite⟩ := hostPort_eq_hostWrite startPc s hop
    rw [hwrite, hostWrite_of_not hno]
  · exact if_neg fun hread => (hostMayRead_iff s).mp hread hrun

/-- Settles O55: of an idle or halted core each row is one update of the state, refused outside the row's range. -/
theorem hostWritesWhileStopped : Obligations.HostWritesWhileStopped := by
  rintro startPc s ⟨-, -, hmem⟩ hst
  have hmay := (hostMayWrite_iff s).mpr hst
  refine ⟨fun a b ha => ?writeMem, fun a b ha => hostPort_writeMem_refused startPc s ha b, fun i b => ?writeReg,
    fun w => ?writePc, fun k w => ?writeStack, fun n hn => ?writeSp, fun n hn => hostPort_writeSp_refused startPc s hn,
    ?run⟩
  case writeMem =>
    exact ⟨_, hostPort_writeMem hmay ha b, Memory.read_setByte_self hmem ha b,
      fun c hc => Memory.read_setByte_ne s.mem b hc, rfl, rfl, rfl, rfl, rfl, rfl, rfl⟩
  case writeReg => exact ⟨_, hostWrite_some hmay _, State.reg_setReg_self s i b, setReg_frame s i b⟩
  case writePc => exact ⟨_, hostWrite_some hmay _, State.setPc_pc s w, setPc_frame s w⟩
  case writeStack =>
    refine ⟨_, hostWrite_some hmay _, fun j => ?_, rfl, rfl, fun _ _ => rfl, fun _ => rfl, ⟨rfl, rfl⟩, rfl⟩
    rw [slot_of_stack_eq_set k.isLt rfl j]
    exact if_congr Fin.val_inj rfl rfl
  case writeSp =>
    exact ⟨_, hostPort_writeSp hmay hn, toNat_ofNat_sp hn, fun _ => rfl, rfl, fun _ _ => rfl, fun _ => rfl, ⟨rfl, rfl⟩,
      rfl⟩
  case run => exact ⟨_, hostWrite_some hmay _, rfl, setStatus_frame s .running⟩

/-- Settles O56: the port reads the element it names, and no element has an address from 4096 up. -/
theorem hostReadsWhileStopped : Obligations.HostReadsWhileStopped := by
  refine fun s h => ⟨fun i => hostRead_eq_element h _, fun a b hb => ?_, fun a ha => ?_,
    fun k => hostRead_eq_element h _, hostRead_eq_element h _, hostRead_eq_element h _, hostRead_eq_element h _,
    hostRead_eq_element h _, hostRead_eq_element h _⟩
  · rw [hostRead_eq_element h, State.element, hb]
    rfl
  · rw [hostRead_eq_element h, State.element, State.readMem, Memory.read_eq_none ha]
    rfl

/-! ## Well-formed states (10 R28) -/

/-- Well formed, and with the record of a fault where `s` had it. -/
def WfFrom (s t : State) : Prop := t.wf ∧ (s.faultRecorded → t.faultRecorded)

theorem wfFrom_refl {s : State} (hs : s.wf) : WfFrom s s := ⟨hs, id⟩

/-- What every state a write may leave has, and the state before, the state after the answer has. -/
theorem stateFrom_hostWrite {P : State → Prop} {s : State} {write : Option State} (hs : P s)
    (hwrite : s.hostMayWrite = true → ∀ t, write = some t → P t) : P ((s.hostWrite write).stateFrom s) := by
  by_cases hmay : s.hostMayWrite = true
  · cases write with
    | none => rwa [hostWrite_none]
    | some t => rw [hostWrite_some hmay]; exact hwrite hmay t rfl
  · rwa [hostWrite_of_not hmay]

theorem wfFrom_hostWrite_some {s t : State} (hs : s.wf) (ht : s.hostMayWrite = true → WfFrom s t) :
    WfFrom s ((s.hostWrite (some t)).stateFrom s) :=
  stateFrom_hostWrite (wfFrom_refl hs) fun hmay _ e => Option.some.inj e ▸ ht hmay

/-- Settles O46: SP is 0, the record is empty and no memory cell is listed. -/
theorem resetIsWellFormed : Obligations.ResetIsWellFormed := fun startPc =>
  ⟨⟨Nat.zero_le _, fun _ => ⟨rfl, rfl⟩, reset_memory_wf startPc⟩, iff_of_false (not_not_intro rfl) nofun, nofun, rfl,
    rfl⟩

/-- Settles O47: no write touches the record, `write_mem` and `write_sp` check their range, and `run` starts a core that is
not faulted. -/
theorem hostPortKeepsWellFormed : Obligations.HostPortKeepsWellFormed := by
  intro startPc op s hs
  have hs' := hs
  obtain ⟨hsp, hrec, hmem⟩ := hs
  cases op with
  | reset =>
    obtain ⟨hwf, hrecorded, -⟩ := resetIsWellFormed startPc
    exact ⟨hwf, fun _ => hrecorded⟩
  | writeMem a b =>
    refine stateFrom_hostWrite (P := WfFrom s) (wfFrom_refl hs') fun _ t ht => ?_
    rcases Memory.write_cases s.mem a b with ⟨-, hwrite, hkeep⟩ | ⟨-, hwrite⟩
    · rw [hwrite] at ht
      obtain rfl := Option.some.inj ht
      exact ⟨⟨hsp, hrec, hkeep hmem⟩, id⟩
    · rw [hwrite] at ht
      exact nomatch ht
  | writeReg i b =>
    rw [hostPort_writeReg]
    exact wfFrom_hostWrite_some hs' fun _ => ⟨⟨hsp, hrec, hmem⟩, id⟩
  | writePc w =>
    rw [hostPort_writePc]
    exact wfFrom_hostWrite_some hs' fun _ => ⟨⟨hsp, hrec, hmem⟩, id⟩
  | writeStack k w =>
    rw [hostPort_writeStack]
    exact wfFrom_hostWrite_some hs' fun _ => ⟨⟨hsp, hrec, hmem⟩, id⟩
  | writeSp n =>
    refine stateFrom_hostWrite (P := WfFrom s) (wfFrom_refl hs') fun _ t ht => ?_
    rw [Option.ite_none_right_eq_some] at ht
    obtain ⟨hn, ht⟩ := ht
    obtain rfl := Option.some.inj ht
    exact ⟨⟨(toNat_ofNat_sp hn).trans_le hn, hrec, hmem⟩, id⟩
  | run =>
    rw [hostPort_run]
    refine wfFrom_hostWrite_some hs' fun hmay => ?_
    have hnot : s.status ≠ .faulted := by
      rcases (hostMayWrite_iff s).mp hmay with hst | hst <;> rw [hst] <;> decide
    obtain ⟨hcause, hinfo⟩ := hrec hnot
    exact ⟨⟨hsp, fun _ => ⟨hcause, hinfo⟩, hmem⟩, fun _ => iff_of_false (not_not_intro hcause) nofun⟩

/-! ## Histories and runs -/

theorem runMoves_cons {startPc : Word} {m : Move} {ms : List Move} {s t : State} (h : m.apply startPc s = .next t) :
    runMoves startPc (m :: ms) s = runMoves startPc ms t := by
  simp only [runMoves, h]

/-- A property that each move of the list keeps, answering a next state, is kept by the list. -/
theorem runMoves_invariant {P : State → Prop} {startPc : Word} {moves : List Move}
    (hmove : ∀ m ∈ moves, ∀ s, P s → ∃ t, m.apply startPc s = .next t ∧ P t) {s : State} (hs : P s) :
    ∃ t, runMoves startPc moves s = .next t ∧ P t := by
  induction moves generalizing s with
  | nil => exact ⟨s, rfl, hs⟩
  | cons m ms ih =>
    obtain ⟨hm, hms⟩ := List.forall_mem_cons.mp hmove
    obtain ⟨t, ht, hPt⟩ := hm s hs
    obtain ⟨u, hu, hPu⟩ := ih hms hPt
    exact ⟨u, (runMoves_cons ht).trans hu, hPu⟩

/-- A handler completes in every state whose SP names a slot or one past the last. -/
theorem exec_next_of_sp_le (i : Instr) {s : State} (h : s.sp.toNat ≤ 16) : ∃ t, exec i s = .next t := by
  cases i with
  | ret =>
    rcases execRet_cases s with ⟨-, e⟩ | ⟨_, _, e⟩ | ⟨habs, -⟩
    · exact ⟨_, e⟩
    · exact ⟨_, e⟩
    · exact absurd h (Nat.not_le.mpr habs)
  | call nnn =>
    rcases execCall_cases nnn s with ⟨-, e⟩ | ⟨_, e⟩ | ⟨habs, -⟩
    · exact ⟨_, e⟩
    · exact ⟨_, e⟩
    · exact absurd h (Nat.not_le.mpr habs)
  | _ => exact ⟨_, rfl⟩

theorem step_next_of_sp_le {s : State} (h : s.sp.toNat ≤ 16) : ∃ t, step s = .next t := by
  rcases step_cases s with ⟨-, e⟩ | ⟨-, -, e⟩ | ⟨_, -, -, -, e⟩ | ⟨_, i, -, -, -, e⟩
  · exact ⟨_, e⟩
  · exact ⟨_, e⟩
  · exact ⟨_, e⟩
  · rw [e]
    exact exec_next_of_sp_le i h

/-- Settles O49: a step of a well-formed core answers a next state, well formed again; by induction over the steps. -/
theorem wellFormedCoreNeverStuck : Obligations.WellFormedCoreNeverStuck := by
  intro k
  induction k with
  | zero => exact fun s hs => ⟨s, rfl, hs⟩
  | succ k ih =>
    intro s hs
    have ⟨hsp, _⟩ := hs
    obtain ⟨t, ht⟩ := step_next_of_sp_le hsp
    obtain ⟨hwf, -⟩ := stepKeepsWellFormed s t hs ht
    obtain ⟨u, hu, hwf⟩ := ih t hwf
    exact ⟨u, by simp only [runSteps, ht, hu], hwf⟩

/-- Well formed, with a cause recorded exactly when faulted. -/
def Sound (s : State) : Prop := s.wf ∧ s.faultRecorded

/-- Every move of the core or the host answers a next state that is sound again. -/
theorem move_keeps_sound (startPc : Word) (m : Move) {s : State} (hs : Sound s) :
    ∃ t, m.apply startPc s = .next t ∧ Sound t := by
  obtain ⟨hwf, hrec⟩ := hs
  cases m with
  | core =>
    have ⟨hsp, _⟩ := hwf
    obtain ⟨t, ht⟩ := step_next_of_sp_le hsp
    obtain ⟨hwf', hkeep⟩ := stepKeepsWellFormed s t hwf ht
    exact ⟨t, ht, hwf', hkeep hrec⟩
  | host op =>
    obtain ⟨hwf', hkeep⟩ := hostPortKeepsWellFormed startPc op s hwf
    exact ⟨_, rfl, hwf', hkeep hrec⟩

theorem reset_sound (startPc : Word) : Sound (State.resetAt startPc) := by
  obtain ⟨hwf, hrec, -⟩ := resetIsWellFormed startPc
  exact ⟨hwf, hrec⟩

/-- Settles O48: each move keeps soundness (`move_keeps_sound`), reset has it, and so every history from reset. -/
theorem everyHistoryIsWellFormed : Obligations.EveryHistoryIsWellFormed := fun startPc =>
  ⟨fun m _ hwf hrec => move_keeps_sound startPc m ⟨hwf, hrec⟩, reset_sound startPc,
    fun _ => runMoves_invariant (P := Sound) (fun m _ _ hs => move_keeps_sound startPc m hs) (reset_sound startPc)⟩

/-- A move of a faulted core other than reset leaves it as it is. -/
theorem apply_of_faulted (startPc : Word) {m : Move} {s : State} (hs : s.status = .faulted) (hm : m ≠ .host .reset) :
    m.apply startPc s = .next s := by
  cases m with
  | core => exact step_of_not_running (by rw [hs]; decide)
  | host op =>
    obtain ⟨hrefused, -⟩ := hostRefusedWhileRunningOrFaulted startPc op s
    rw [Move.apply, hrefused (.inr hs) fun hop => hm (hop ▸ rfl)]
    rfl

/-- Settles O51: being the state `s` is kept by every move but reset. -/
theorem faultedUntilReset : Obligations.FaultedUntilReset := by
  refine fun startPc moves s hs => ⟨fun hno => ?_, rfl⟩
  have hmove (m : Move) (hm : m ∈ moves) (t : State) (ht : t = s) : ∃ u, m.apply startPc t = .next u ∧ u = s :=
    ht ▸ ⟨t, apply_of_faulted startPc (ht ▸ hs) (fun e => hno (e ▸ hm)), rfl⟩
  obtain ⟨t, ht, rfl⟩ := runMoves_invariant (P := (· = s)) hmove rfl
  exact ht

/-! ## Loading a word and launching (70 R156, log entry 2) -/

theorem apply_writeMem (startPc : Word) {s : State} {a : Nat} (h : s.status = .idle) (ha : a < 4096) (b : Byte) :
    (Move.host (.writeMem a b)).apply startPc s = .next { s with mem := Memory.setByte s.mem a b } := by
  rw [Move.apply, hostPort_writeMem ((hostMayWrite_iff s).mpr (.inl h)) ha]
  rfl

theorem apply_run (startPc : Word) {s : State} (h : s.status = .idle) :
    (Move.host .run).apply startPc s = .next (s.setStatus .running) := by
  rw [Move.apply, hostPort_run, hostWrite_some ((hostMayWrite_iff s).mpr (.inl h))]
  rfl

/-- Settles O59: the idle core accepts all three operations, which write the two bytes at the start address and STATUS. -/
theorem placedWordIsHostLoad : Obligations.PlacedWordIsHostLoad := by
  intro startPc w hpc hw
  have hplace : (State.resetAt startPc).withFetchWord 16 w =
      State.setStatus { State.resetAt startPc with
        mem := Memory.setBytes [] startPc.toNat (bytesOfWord (BitVec.ofNat 16 w)) } .running := by
    rw [State.withFetchWord, tableWord_sixteen hw, State.placeForFetch, State.resetAt_pc,
      if_pos ((fetchOk_iff startPc).mpr hpc)]
    rfl
  rw [hplace]
  have hfirst : startPc.toNat < 4096 := by omega
  have hsecond : startPc.toNat + 1 < 4096 := by omega
  exact Eq.trans (runMoves_cons (apply_writeMem startPc rfl hfirst _))
    (Eq.trans (runMoves_cons (apply_writeMem startPc rfl hsecond _)) (runMoves_cons (apply_run startPc rfl)))

end Sys2Proof.Machine
end

section
/-! CALL, RET and CLS (41), the step that runs a skip (42 R94), and the cycle around the handlers (40): out of bounds and
stopped cores, how a run ends (70 R157), and that only the two fetched bytes of memory matter (20 R37). -/

namespace Sys2Proof.Machine

/-! ## CALL and RET by the stack pointer -/

theorem exec_call_of_free (nnn : Addr) {s : State} (h : s.sp.toNat < 16) : exec (.call nnn) s =
    .next { s with stack := s.stack.set s.sp.toNat s.pc, sp := s.sp + 1#5, pc := targetOf nnn } := by
  rcases execCall_cases nnn s with ⟨h', -⟩ | ⟨_, e⟩ | ⟨h', -⟩
  · omega
  · exact e
  · omega

theorem exec_call_of_full (nnn : Addr) {s : State} (h : s.sp.toNat = 16) :
    exec (.call nnn) s = .next (s.raiseFatal .stackOverflow s.instrAddr) :=
  if_pos ((sp_eq_iff s (by decide)).mpr h)

theorem exec_call_of_absent (nnn : Addr) {s : State} (h : 16 < s.sp.toNat) :
    exec (.call nnn) s = .fault .stackSlotAbsent := by
  rcases execCall_cases nnn s with ⟨h', -⟩ | ⟨h', -⟩ | ⟨-, e⟩
  · omega
  · omega
  · exact e

theorem exec_ret_of_used {s : State} (h1 : 1 ≤ s.sp.toNat) (h2 : s.sp.toNat ≤ 16) :
    exec .ret s = .next { s with sp := s.sp - 1#5, pc := s.slot ⟨s.sp.toNat - 1, by omega⟩ } := by
  rcases execRet_cases s with ⟨h', -⟩ | ⟨_, _, e⟩ | ⟨h', -⟩
  · omega
  · exact e
  · omega

theorem exec_ret_of_empty {s : State} (h : s.sp.toNat = 0) :
    exec .ret s = .next (s.raiseFatal .stackUnderflow s.instrAddr) :=
  if_pos ((sp_eq_iff s (by decide)).mpr h)

theorem exec_ret_of_absent {s : State} (h : 16 < s.sp.toNat) : exec .ret s = .fault .stackSlotAbsent := by
  rcases execRet_cases s with ⟨h', -⟩ | ⟨_, h', -⟩ | ⟨-, e⟩
  · omega
  · omega
  · exact e

/-! ## The obligations of the family (41) -/

/-- Settles O16: the handler answers its own state, so a step is the advance alone. -/
theorem clsIsInert : Obligations.ClsIsInert :=
  ⟨rfl, fun s => ⟨s, rfl, fun _ _ => rfl, fun _ => rfl, ⟨fun _ => rfl, rfl⟩, ⟨rfl, rfl⟩, rfl, rfl⟩,
    fun s hrun hfetch => ⟨s.advance, step_eq_exec hrun hfetch rfl, rfl, setPc_frame s _⟩⟩

/-- Settles O18: the handler writes slot SP, the pointer and the pc. -/
theorem callPushesAndJumps : Obligations.CallPushesAndJumps := fun nnn _ h =>
  ⟨decodeWord_call nnn, _, exec_call_of_free nnn h, slot_of_stack_eq_set h rfl, toNat_sp_add_one h, toNat_targetOf nnn,
    fun _ _ => rfl, fun _ => rfl, ⟨rfl, rfl⟩, rfl⟩

/-- Settles O19: the check comes before the push; in a step the address recorded is the pc before the advance. -/
theorem callOnFullStackIsFatal : Obligations.CallOnFullStackIsFatal := by
  refine ⟨fun nnn s h => ⟨_, exec_call_of_full nnn h, raiseFatal_frame s _ _⟩, fun nnn s hrun hfetch h => ?_⟩
  have hstep := (step_eq_exec hrun hfetch (decodeWord_call nnn)).trans (exec_call_of_full (s := s.advance) nnn h)
  rw [State.instrAddr_advance] at hstep
  exact ⟨_, hstep, raiseFatal_frame s.advance _ _⟩

/-- Settles O20: the handler moves the pointer down and takes the slot there as the pc. -/
theorem returnPopsPc : Obligations.ReturnPopsPc := by
  refine ⟨rfl, fun _ h1 h2 => ⟨_, exec_ret_of_used h1 h2, toNat_sp_sub_one h1, fun k hk => ?_, fun _ => rfl,
    fun _ _ => rfl, fun _ => rfl, ⟨rfl, rfl⟩, rfl⟩⟩
  have hsp : k.val + 1 = _ := hk ▸ toNat_sp_sub_one h1
  exact congrArg _ (Fin.ext (Nat.sub_eq_of_eq_add hsp.symm))

/-- Settles O21: the check comes before the pop; in a step the address recorded is the pc before the advance. -/
theorem returnOnEmptyStackIsFatal : Obligations.ReturnOnEmptyStackIsFatal := by
  refine ⟨fun s h => ⟨_, exec_ret_of_empty h, raiseFatal_frame s _ _⟩, fun s hrun hfetch h => ?_⟩
  have hstep := (step_eq_exec hrun hfetch rfl).trans (exec_ret_of_empty (s := s.advance) h)
  rw [State.instrAddr_advance] at hstep
  exact ⟨_, hstep, raiseFatal_frame s.advance _ _⟩

/-- Settles O22: a pointer above 16 passes both checks and names no slot. -/
theorem absentSlotStopsCallAndReturn : Obligations.AbsentSlotStopsCallAndReturn := fun nnn _ h =>
  ⟨exec_call_of_absent nnn h, exec_ret_of_absent h⟩

/-- Settles O23: the CALL left `p + 2` in slot `k` and the pointer one above `k`, so the RET takes slot `k`. -/
theorem callReturnRestoresPcAndSp : Obligations.CallReturnRestoresPcAndSp := by
  intro s t r nnn k hrun hfetch hk hstep hrrun hrfetch hsp hslot
  have hfree : s.advance.sp.toNat < 16 := hk ▸ k.isLt
  rw [step_eq_exec hrun hfetch (decodeWord_call nnn), exec_call_of_free nnn hfree] at hstep
  obtain rfl := Host.Outcome.next.inj hstep
  have hpush : r.sp.toNat = k.val + 1 := by rw [hsp, hk]; exact toNat_sp_add_one hfree
  have hsaved : r.slot k = s.pc + 2#16 := by
    rw [hslot, slot_of_stack_eq_set hfree rfl k]
    exact if_pos hk
  have hret := (step_eq_exec hrrun hrfetch rfl).trans
    (exec_ret_of_used (s := r.advance) (hpush ▸ Nat.le_add_left 1 k.val) (hpush ▸ k.isLt))
  refine ⟨_, hret, ?_, ?_, hsaved⟩
  · have hslotk : (⟨r.advance.sp.toNat - 1, by rw [State.advance_sp, hpush]; exact k.isLt⟩ : Fin 16) = k :=
      Fin.ext (Nat.sub_eq_of_eq_add hpush)
    exact (congrArg r.slot hslotk).trans hsaved
  · change r.sp - 1#5 = s.sp
    rw [hsp]
    exact BitVec.add_sub_cancel s.sp 1#5

/-! ## Skips (42) -/

/-- The handler of a skip, by its condition. -/
theorem exec_of_skipCondition {i : Instr} {s : State} {c : Bool} (h : skipCondition s i = some c) :
    exec i s = .next (s.skipIf c) := by
  cases i with
  | seI x kk => obtain rfl := Option.some.inj h; exact exec_seI x kk s
  | sneI x kk => obtain rfl := Option.some.inj h; simp only [ne_eq, decide_not]; exact exec_sneI x kk s
  | seR x y => obtain rfl := Option.some.inj h; exact exec_seR x y s
  | sneR x y => obtain rfl := Option.some.inj h; simp only [ne_eq, decide_not]; exact exec_sneR x y s
  | _ => exact nomatch h

theorem skipCondition_advance (s : State) (i : Instr) : skipCondition s.advance i = skipCondition s i := by
  cases i <;> rfl

/-- Settles O28: the step adds 2 and the skip 2 more, from a pc that a fetch bounds by 0x0FFE. -/
theorem skipAdvancesByFourOrTwo : Obligations.SkipAdvancesByFourOrTwo := by
  intro s op i c hrun hfetch hdec hcond
  have hskip := exec_of_skipCondition ((skipCondition_advance s i).trans hcond)
  refine ⟨_, (step_eq_exec hrun hfetch hdec).trans hskip, ?_, skipIf_frame s.advance c⟩
  obtain ⟨hadd, hle⟩ := toNat_pc_advance_of_fetch hfetch
  rw [State.skipIf_pc, State.advance_pc]
  cases c with
  | false => exact hadd
  | true => rw [if_pos rfl, if_pos rfl, BitVec.toNat_add, hadd, BitVec.toNat_ofNat]; omega

/-! ## The cycle (40) -/

theorem fetch_of_readMem {s : State} {hi lo : Byte} (hhi : s.readMem s.pc.toNat = some hi)
    (hlo : s.readMem (s.pc.toNat + 1) = some lo) : s.fetch = some (wordOfBytes hi lo) := by
  have hok : fetchOk s.pc = true := by
    rw [fetchOk_iff]
    by_contra hout
    have hbeyond : Config.memSize ≤ s.pc.toNat + 1 := Nat.succ_le_succ (Nat.lt_of_not_le hout)
    exact absurd ((Memory.read_eq_none hbeyond).symm.trans hlo) nofun
  rw [State.fetch, if_pos hok, hhi, hlo]

theorem decodeWord_of_decode {hi lo : Byte} {i : Instr} (h : decode [hi, lo] = .ok (i, [])) :
    decodeWord (wordOfBytes hi lo) = some i := by
  rw [decode] at h
  split at h
  · next e => rw [e]; exact congrArg some (congrArg Prod.fst (Except.ok.inj h))
  · exact nomatch h

/-- Settles O11: the two bytes are the word fetched. -/
theorem stepRunsDecodedInstruction : Obligations.StepRunsDecodedInstruction := fun _ _ _ _ hrun hhi hlo hdec =>
  step_eq_exec hrun (fetch_of_readMem hhi hlo) (decodeWord_of_decode hdec)

/-- Settles O12: out of bounds nothing is fetched, and the cycle ends in the fatal condition. -/
theorem fetchOutOfBoundsIsFatal : Obligations.FetchOutOfBoundsIsFatal := by
  intro s hrun hpc
  rcases s.fetch_cases with ⟨hle, -⟩ | ⟨-, hfetch⟩
  · exact absurd hpc (Nat.not_lt.mpr hle)
  · refine ⟨_, ?_, raiseFatal_frame s .fetchOutOfBounds s.pc⟩
    rw [step_of_running hrun, cycle, hfetch]

/-- Settles O13: only a running core performs the cycle. -/
theorem stoppedCoreChangesNothing : Obligations.StoppedCoreChangesNothing := fun _ => step_of_not_running

/-! ## How a run ends (70 R157) -/

/-- The fatal condition that the dispatch of an instruction raises. -/
def handlerCause (s : State) : Instr → FaultCause
  | .call _ => if s.sp = 16#5 then .stackOverflow else .none
  | .ret => if s.sp = 0#5 then .stackUnderflow else .none
  | _ => .none

theorem fatalCause_of_decodeWord {s : State} {op : Word} {i : Instr} (hfetch : s.fetch = some op)
    (hdec : decodeWord op = some i) : s.fatalCause = handlerCause s i := by
  rw [State.fatalCause, hfetch]
  simp only [hdec]
  cases i <;> rfl

/-- A step to the next state ends the run by HALT, goes on, or ends it by the fatal condition of the state before. -/
inductive RunStep (s t : State) : Prop where
  | halts (hfetch : s.fetch = some 0x0000#16) (hcause : s.fatalCause = .none)
      (ht : t = { s with pc := s.pc + 2#16, status := .halted })
  | goesOn (hfetch : s.fetch ≠ some 0x0000#16) (hcause : s.fatalCause = .none) (ht : t.status = .running)
  | fails (hfetch : s.fetch ≠ some 0x0000#16) (hcause : s.fatalCause ≠ .none) (ht : t.status = .faulted)
      (hc : t.faultCause = s.fatalCause) (hi : t.faultInfo = s.fatalInfo)

theorem fatalInfo_of_ne_unknownOpcode {s : State} (h : s.fatalCause ≠ .unknownOpcode) : s.fatalInfo = s.pc := by
  unfold State.fatalInfo
  split
  · next hc _ => exact absurd hc h
  · rfl

/-- A skip is not HALT and raises no fatal condition. -/
theorem no_end_of_skipCondition {i : Instr} {u : State} {c : Bool} (h : skipCondition u i = some c) (s : State) :
    i ≠ .halt ∧ handlerCause s i = .none := by
  cases i with
  | halt | ret | call => exact nomatch h
  | _ => exact ⟨nofun, rfl⟩

/-- An instruction that writes a register is not HALT and raises no fatal condition. -/
theorem no_end_of_writtenRegisters {i : Instr} {x : RegIdx} {xs : List RegIdx} (h : writtenRegisters i = x :: xs)
    (s : State) : i ≠ .halt ∧ handlerCause s i = .none := by
  cases i with
  | halt | ret | call => exact nomatch h
  | _ => exact ⟨nofun, rfl⟩

/-- Only the word of HALT is 0x0000. -/
theorem fetch_ne_zero {s : State} {op : Word} (hfetch : s.fetch = some op) (hdec : decodeWord op ≠ some .halt) :
    s.fetch ≠ some 0x0000#16 := by
  rintro h0
  obtain rfl := Option.some.inj (hfetch.symm.trans h0)
  exact hdec rfl

/-- The step of a decoded instruction, by what its handler does on the advanced state. -/
theorem runStep_of_effect {s t : State} {op : Word} {i : Instr} (hrun : s.status = .running) (hfetch : s.fetch = some op)
    (hdec : decodeWord op = some i) (h : Effect i s.advance t) : RunStep s t := by
  have hcause := fatalCause_of_decodeWord hfetch hdec
  have hne (hi : i ≠ .halt) : s.fetch ≠ some 0x0000#16 :=
    fetch_ne_zero hfetch fun e => hi (Option.some.inj (hdec.symm.trans e))
  have hgoesOn : i ≠ .halt ∧ handlerCause s i = .none → t.status = s.status → RunStep s t :=
    fun ⟨hi, hc⟩ ht => .goesOn (hne hi) (hcause.trans hc) (ht.trans hrun)
  have hfails {c : FaultCause} (hi : i ≠ .halt) (hc : handlerCause s i = c) (hcnone : c ≠ .none)
      (hcop : c ≠ .unknownOpcode) (ht : t = s.advance.raiseFatal c s.advance.instrAddr) : RunStep s t := by
    rw [hc] at hcause
    have hinfo := fatalInfo_of_ne_unknownOpcode (hcause ▸ hcop)
    exact .fails (hne hi) (hcause ▸ hcnone) (ht ▸ rfl) (hcause ▸ ht ▸ rfl)
      (hinfo ▸ ht ▸ State.instrAddr_advance s)
  cases h with
  | halted => exact .halts (hfetch.trans (congrArg some (encode_of_decodeWord hdec).symm)) hcause rfl
  | inert | jumped => exact hgoesOn ⟨nofun, rfl⟩ rfl
  | underflowed _ h0 => exact hfails nofun (if_pos ((sp_eq_iff s (by decide)).mpr h0)) nofun nofun rfl
  | returned _ h1 =>
    exact hgoesOn ⟨nofun, if_neg fun e => absurd ((sp_eq_iff s (by decide)).mp e) (Nat.ne_of_gt h1)⟩ rfl
  | overflowed _ _ hfull => exact hfails nofun (if_pos ((sp_eq_iff s (by decide)).mpr hfull)) nofun nofun rfl
  | called _ _ hfree =>
    exact hgoesOn ⟨nofun, if_neg fun e => absurd ((sp_eq_iff s (by decide)).mp e) (Nat.ne_of_lt hfree)⟩ rfl
  | skipped _ _ c hc => exact hgoesOn (no_end_of_skipCondition hc s) (State.skipIf_status s.advance c)
  | wroteOne _ _ _ _ hw | wroteTwo _ _ _ _ _ hw => exact hgoesOn (no_end_of_writtenRegisters hw s) rfl

/-- Every step of a running core to a next state is one of the three. -/
theorem runStep_of_step {s t : State} (hrun : s.status = .running) (h : step s = .next t) : RunStep s t := by
  rcases step_cases s with ⟨hstop, -⟩ | ⟨-, hfetch, e⟩ | ⟨op, -, hfetch, hdec, e⟩ | ⟨op, i, -, hfetch, hdec, e⟩
  · exact absurd hrun hstop
  · obtain rfl := Host.Outcome.next.inj (e.symm.trans h)
    have hcause : s.fatalCause = .fetchOutOfBounds := by rw [State.fatalCause, hfetch]
    exact .fails (hfetch ▸ nofun) (hcause ▸ nofun) rfl hcause.symm
      (fatalInfo_of_ne_unknownOpcode (hcause ▸ nofun)).symm
  · obtain rfl := Host.Outcome.next.inj (e.symm.trans h)
    have hcause : s.fatalCause = .unknownOpcode := by rw [State.fatalCause, hfetch]; simp only [hdec]
    have hinfo : s.fatalInfo = op := by rw [State.fatalInfo, hcause, hfetch]
    exact .fails (fetch_ne_zero hfetch (hdec ▸ nofun)) (hcause ▸ nofun) rfl hcause.symm hinfo.symm
  · exact runStep_of_effect hrun hfetch hdec (exec_effect (e.symm.trans h))

/-- Settles O14: the three kinds of step differ in STATUS, in the word fetched and in the fatal condition. -/
theorem runEndsByHaltOrFatal : Obligations.RunEndsByHaltOrFatal := by
  intro s t hrun h
  cases runStep_of_step hrun h with
  | halts hfetch hcause ht => simp [hfetch, hcause, ht]
  | goesOn hfetch hcause ht => simp [ht, hfetch, hcause]
  | fails hfetch hcause ht hc hi => simp [ht, hfetch, hcause, hc, hi]

/-! ## Only the two fetched bytes matter (20 R37) -/

/-- The same core with another memory. -/
def State.withMem (s : State) (m : Memory) : State := { s with mem := m }

theorem eq_withMem {s s' : State} (h : SameButMemory s s') : s' = s.withMem s'.mem := by
  obtain ⟨hv, hstack, hsp, hpc, hst, hc, hi⟩ := h
  cases s'
  simp_all [State.withMem]

theorem skipIf_withMem (s : State) (m : Memory) (c : Bool) : (s.withMem m).skipIf c = (s.skipIf c).withMem m := by
  cases c <;> rfl

/-- A handler does the same on any memory. -/
theorem exec_withMem {i : Instr} {s t : State} (h : exec i s = .next t) (m : Memory) :
    exec i (s.withMem m) = .next (t.withMem m) := by
  cases i with
  | ret =>
    rcases execRet_cases s with ⟨h0, e⟩ | ⟨h1, h2, e⟩ | ⟨-, e⟩
    · obtain rfl := Host.Outcome.next.inj (e.symm.trans h)
      exact exec_ret_of_empty h0
    · obtain rfl := Host.Outcome.next.inj (e.symm.trans h)
      exact exec_ret_of_used (s := s.withMem m) h1 h2
    · exact nomatch e.symm.trans h
  | call nnn =>
    rcases execCall_cases nnn s with ⟨h0, e⟩ | ⟨h1, e⟩ | ⟨-, e⟩
    · obtain rfl := Host.Outcome.next.inj (e.symm.trans h)
      exact exec_call_of_full nnn h0
    · obtain rfl := Host.Outcome.next.inj (e.symm.trans h)
      exact exec_call_of_free nnn (s := s.withMem m) h1
    · exact nomatch e.symm.trans h
  | seI x kk | sneI x kk | seR x y | sneR x y =>
    obtain rfl := Host.Outcome.next.inj h
    exact congrArg Host.Outcome.next (skipIf_withMem s m _)
  | _ => obtain rfl := Host.Outcome.next.inj h; rfl

/-- A fetch depends on the two bytes alone. -/
theorem fetch_withMem {s : State} {m : Memory} (hhi : Memory.read m s.pc.toNat = s.readMem s.pc.toNat)
    (hlo : Memory.read m (s.pc.toNat + 1) = s.readMem (s.pc.toNat + 1)) : (s.withMem m).fetch = s.fetch := by
  rw [State.fetch, State.fetch, ← hhi, ← hlo]
  rfl

theorem step_withMem {s t : State} {m : Memory} (hfetch : (s.withMem m).fetch = s.fetch) (h : step s = .next t) :
    step (s.withMem m) = .next (t.withMem m) := by
  rcases step_cases s with ⟨hstop, e⟩ | ⟨hrun, hnone, e⟩ | ⟨op, hrun, hop, hdec, e⟩ | ⟨op, i, hrun, hop, hdec, e⟩
  · obtain rfl := Host.Outcome.next.inj (e.symm.trans h)
    exact step_of_not_running hstop
  · obtain rfl := Host.Outcome.next.inj (e.symm.trans h)
    rw [step_of_running (s := s.withMem m) hrun, cycle, hfetch, hnone]
    rfl
  · obtain rfl := Host.Outcome.next.inj (e.symm.trans h)
    exact step_eq_unknownOpcode (s := s.withMem m) hrun (hfetch.trans hop) hdec
  · rw [step_eq_exec (s := s.withMem m) hrun (hfetch.trans hop) hdec]
    exact exec_withMem (e.symm.trans h) m

/-- Settles O43: the other core is the same one with another memory, from which the fetch reads the same word. -/
theorem onlyFetchedBytesMatter : Obligations.OnlyFetchedBytesMatter := by
  intro s t s' hsame hhi hlo h
  rw [eq_withMem hsame] at hhi hlo ⊢
  exact ⟨_, step_withMem (fetch_withMem hhi hlo) h, ⟨rfl, rfl, rfl, rfl, rfl, rfl, rfl⟩, step_mem_eq h, rfl⟩

end Sys2Proof.Machine
end

section
/-! The arithmetic of the register-register instructions (44): sum with carry, difference with no-borrow, both read as two's
complement (R107), and the less-than that SUB_R and a test of V[15] make. -/

namespace Sys2Proof.Machine

/-! ## The two writes of ADD_R and SUB_R -/

theorem reg_setResultAndFlag_of_ne (s : State) {x : RegIdx} (hx : x ≠ 15) (r f : Byte) :
    (s.setResultAndFlag x r f).reg x = r := by
  rw [State.reg_setResultAndFlag, if_neg hx, if_pos rfl]

theorem toNat_subBytes (a b : Byte) : (subBytes a b).toNat = (a.toNat + 256 - b.toNat) % 256 := by
  have := b.isLt
  rw [subBytes_eq, BitVec.toNat_sub]
  omega

/-- Settles O35: the flag is written last, so the sum stands in V[x] unless x is 15. -/
theorem addRegistersWithCarryOut : Obligations.AddRegistersWithCarryOut := fun x y s =>
  ⟨decodeWord_registerPair x y 0x4#4, _, exec_addR x y s, reg_flag_setResultAndFlag s x _ _,
    fun hx => (congrArg BitVec.toNat (reg_setResultAndFlag_of_ne s hx _ _)).trans (toNat_addBytes _ _),
    setResultAndFlag_frame s x _ _⟩

/-- Settles O36: the flag is written last, so the difference stands in V[x] unless x is 15. -/
theorem subtractRegistersWithNoBorrow : Obligations.SubtractRegistersWithNoBorrow := fun x y s =>
  ⟨decodeWord_registerPair x y 0x5#4, _, exec_subR x y s, reg_flag_setResultAndFlag s x _ _,
    fun hx => (congrArg BitVec.toNat (reg_setResultAndFlag_of_ne s hx _ _)).trans (toNat_subBytes _ _),
    setResultAndFlag_frame s x _ _⟩

/-! ## Two's complement (R107) -/

theorem toInt_addBytes (a b : Byte) : (addBytes a b).toInt = Int.bmod (a.toInt + b.toInt) 256 := by
  rw [addBytes_eq, BitVec.toInt_add]

theorem toInt_subBytes (a b : Byte) : (subBytes a b).toInt = Int.bmod (a.toInt - b.toInt) 256 := by
  rw [subBytes_eq, BitVec.toInt_sub]

/-- Settles O37: the truncated results are the sum and the difference of bit vectors, which are right in both readings. -/
theorem arithmeticIsRightInTwosComplement : Obligations.ArithmeticIsRightInTwosComplement := fun x y kk s =>
  ⟨⟨_, exec_addI x kk s, (congrArg BitVec.toInt (State.reg_setReg_self s x _)).trans (toInt_addBytes _ _)⟩,
    fun hx => ⟨_, exec_addR x y s,
      (congrArg BitVec.toInt (reg_setResultAndFlag_of_ne s hx _ _)).trans (toInt_addBytes _ _)⟩,
    fun hx => ⟨_, exec_subR x y s,
      (congrArg BitVec.toInt (reg_setResultAndFlag_of_ne s hx _ _)).trans (toInt_subBytes _ _)⟩⟩

theorem noBorrowFlag_eq_zero_iff (a b : Byte) : noBorrowFlag a b = 0x00#8 ↔ a.toNat < b.toNat := by
  rcases noBorrowFlag_cases a b with ⟨hlt, e⟩ | ⟨hle, e⟩
  · exact iff_of_true e hlt
  · exact iff_of_false (by rw [e]; decide) (Nat.not_lt.mpr hle)

/-- Settles O38: the skip tests the no-borrow flag, which is 0 exactly when V[x] is below V[y]. -/
theorem subtractThenTestIsLessThan : Obligations.SubtractThenTestIsLessThan := by
  refine fun x y s => ⟨_, _, exec_subR x y s, exec_seI 15 0x00#8 _, ?_⟩
  rw [← noBorrowFlag_eq_zero_iff]
  refine (skipIf_pc_eq_add_two_iff _ _).trans ?_
  rw [beq_iff_eq, reg_flag_setResultAndFlag]

end Sys2Proof.Machine
end

section
/-! The composition of the eight sub-blocks is the step (50 R110 to R119): the fetch unit reads the fetched word, the decoder
selects the decoded instruction's row and its operands, and under that row of the control table the register file, the call
stack and the program counter do what the handler does. -/

namespace Sys2Proof.Machine

/-! ## fetch_unit (R111) -/

theorem toNat_setWidth_twelve {w : Word} (h : w.toNat < 4096) : (w.setWidth 12).toNat = w.toNat := by
  rw [BitVec.toNat_setWidth, Nat.mod_eq_of_lt h]

theorem fetchUnit_eq_fetch (s : State) : fetchUnit s.pc s.mem = s.fetch := by
  have hle : s.pc ≤ 0x0FFE#16 ↔ s.pc.toNat ≤ 0x0FFE := BitVec.le_def
  rcases s.fetch_cases with ⟨hpc, e⟩ | ⟨hpc, e⟩
  · have hpc : s.pc.toNat ≤ 0x0FFE := hpc
    have hnext : (s.pc + 1#16).toNat = s.pc.toNat + 1 := by
      rw [BitVec.toNat_add, BitVec.toNat_ofNat]
      omega
    rw [e, fetchUnit, if_pos (hle.mpr hpc), memoryInterface, memoryInterface, toNat_setWidth_twelve (by omega),
      toNat_setWidth_twelve (by omega), hnext, wordOfBytes]
  · rw [e, fetchUnit, if_neg fun h => Nat.not_lt.mpr (hle.mp h) hpc]

/-! ## instruction_decoder (R112) -/

/-- The row the decoder block selects is the one of the decoded instruction. -/
theorem selectMnemonic_eq (w : Word) : selectMnemonic w = (decodeWord w).map Instr.mnemonic := by
  cases hdec : decodeWord w with
  | none =>
    have hno : opcodeTable.find? (OpRow.selects · w) = none := by
      rw [List.find?_eq_none]
      intro r hr hsel
      obtain ⟨i, hi, -⟩ := decodesAs_of_row w r hr (eq_of_beq hsel)
      exact nomatch hdec.symm.trans hi
    rw [selectMnemonic, hno]
    rfl
  | some i =>
    obtain ⟨q, hq, hqm, hsel⟩ := row_of_decodeWord hdec
    cases hfind : opcodeTable.find? (OpRow.selects · w) with
    | none => exact absurd (beq_iff_eq.mpr hsel) (List.find?_eq_none.mp hfind q hq)
    | some r =>
      have hr : r.selects w = true := List.find?_some (p := (OpRow.selects · w)) hfind
      have hrq := opcodeRowsDisjoint w r (List.mem_of_find?_eq_some hfind) q hq hr (beq_iff_eq.mpr hsel)
      rw [selectMnemonic, hfind, hrq]
      exact congrArg some hqm

/-! ## register_file (R113) -/

theorem registerFile_kept (v : Vector Byte 16) (x : RegIdx) (r f : Byte) : registerFile v x false r false f = v := by
  ext k hk
  simp [registerFile]

theorem registerFile_result (v : Vector Byte 16) (x : RegIdx) (r f : Byte) :
    registerFile v x true r false f = v.set x r := by
  ext k hk
  simp [registerFile, Vector.getElem_set, Fin.ext_iff, eq_comm]

theorem registerFile_result_flag (v : Vector Byte 16) (x : RegIdx) (r f : Byte) :
    registerFile v x true r true f = (v.set x r).set Config.flagReg f := by
  ext k hk
  simp [registerFile, Vector.getElem_set, Fin.ext_iff, eq_comm]

/-! ## The composition (R117) -/

/-- What the blocks make of a decoded word: its row of the control table, on the operands in its fields. -/
def blockExec (s : State) (op : Word) (m : Mnemonic) : Host.Outcome State Fault Refusal :=
  let ctl := controlTable m
  let out := aluSimple ctl.alu (s.v[fieldX op]) (s.v[fieldY op]) (fieldKk op)
  match callStack s.stack s.sp (s.pc + 2#16) ctl.stack with
  | .overflow => .next (s.advance.raiseFatal .stackOverflow s.pc)
  | .underflow => .next (s.advance.raiseFatal .stackUnderflow s.pc)
  | .absent => .fault .stackSlotAbsent
  | .ok stack sp popped =>
    .next
      { s with
        v := registerFile s.v (fieldX op) ctl.resultPort out.result ctl.flagPort out.flag
        stack := stack
        sp := sp
        pc := programCounter s.pc ctl.pc (fieldNnn op) popped out.cond
        status := if ctl.halts then .halted else .running }

theorem blockStep_of_decodeWord {s : State} {op : Word} {i : Instr} (hrun : s.status = .running)
    (hfetch : s.fetch = some op) (hdec : decodeWord op = some i) : blockStep s = blockExec s op i.mnemonic := by
  have hsel : (instructionDecoder op).sel = some i.mnemonic := (selectMnemonic_eq op).trans (by rw [hdec]; rfl)
  rw [blockStep, if_neg (not_not_intro hrun), fetchUnit_eq_fetch, hfetch]
  simp only [hsel]
  rfl

/-! ### The rows of the control table, by what they enable -/

theorem blockExec_halt (s : State) (op : Word) : blockExec s op .halt = .next (s.advance.setStatus .halted) := by
  simp only [blockExec, controlTable, callStack, registerFile_kept]
  rfl

section
variable {s : State} {op : Word} {m : Mnemonic} {f : AluOp} (hrun : s.status = .running)
include hrun

theorem blockExec_skip (hm : controlTable m = { alu := f, pc := .skipIfCond }) : blockExec s op m =
    .next (s.advance.skipIf (aluSimple f (s.reg (fieldX op)) (s.reg (fieldY op)) (fieldKk op)).cond) := by
  have hskip (c : Bool) : programCounter s.pc .skipIfCond (fieldNnn op) 0x0000#16 c = (s.advance.skipIf c).pc := by
    cases c with
    | false => rfl
    | true => exact (BitVec.add_assoc s.pc 2#16 2#16).symm
  simp only [blockExec, hm, callStack, registerFile_kept, hskip, State.reg_eq]
  generalize AluOut.cond _ = c
  cases c <;> rw [if_neg Bool.false_ne_true, ← hrun] <;> rfl

theorem blockExec_result (hm : controlTable m = { alu := f, resultPort := true }) : blockExec s op m =
    .next (s.advance.setReg (fieldX op)
      (aluSimple f (s.reg (fieldX op)) (s.reg (fieldY op)) (fieldKk op)).result) := by
  simp only [blockExec, hm, callStack, registerFile_result]
  rw [if_neg Bool.false_ne_true, ← hrun]
  rfl

theorem blockExec_result_flag (hm : controlTable m = { alu := f, resultPort := true, flagPort := true }) :
    blockExec s op m =
    .next (s.advance.setResultAndFlag (fieldX op)
      (aluSimple f (s.reg (fieldX op)) (s.reg (fieldY op)) (fieldKk op)).result
      (aluSimple f (s.reg (fieldX op)) (s.reg (fieldY op)) (fieldKk op)).flag) := by
  simp only [blockExec, hm, callStack, registerFile_result_flag]
  rw [if_neg Bool.false_ne_true, ← hrun]
  rfl

theorem blockExec_inert (hm : controlTable m = {}) : blockExec s op m = .next s.advance := by
  simp only [blockExec, hm, callStack, registerFile_kept]
  rw [if_neg Bool.false_ne_true, ← hrun]
  rfl

theorem blockExec_jump (hm : controlTable m = { pc := .loadNnn }) :
    blockExec s op m = .next (s.advance.setPc (targetOf (fieldNnn op))) := by
  simp only [blockExec, hm, callStack, registerFile_kept]
  rw [if_neg Bool.false_ne_true, ← hrun]
  rfl

/-- The push port answers as CALL does, by the stack pointer. -/
theorem blockExec_call : blockExec s op .call = exec (.call (fieldNnn op)) s.advance := by
  simp only [blockExec, controlTable, registerFile_kept, callStack]
  rcases Nat.lt_trichotomy s.sp.toNat 16 with hfree | hfull | habsent
  · rw [exec_call_of_free (s := s.advance) _ hfree, if_neg (Nat.ne_of_lt hfree), dif_pos hfree]
    rw [← hrun]
    rfl
  · rw [exec_call_of_full (s := s.advance) _ hfull, if_pos hfull, State.instrAddr_advance]
  · rw [exec_call_of_absent (s := s.advance) _ habsent, if_neg (Nat.ne_of_gt habsent), dif_neg (Nat.lt_asymm habsent)]

/-- The pop port answers as RET does, by the stack pointer. -/
theorem blockExec_ret : blockExec s op .ret = exec .ret s.advance := by
  simp only [blockExec, controlTable, registerFile_kept, callStack]
  by_cases hempty : s.sp.toNat = 0
  · rw [exec_ret_of_empty (s := s.advance) hempty, if_pos hempty, State.instrAddr_advance]
  · rw [if_neg hempty]
    by_cases hused : s.sp.toNat ≤ 16
    · rw [exec_ret_of_used (s := s.advance) (Nat.one_le_iff_ne_zero.mpr hempty) hused, dif_pos (by omega)]
      rw [← hrun]
      rfl
    · rw [exec_ret_of_absent (s := s.advance) (Nat.lt_of_not_le hused), dif_neg (by omega)]

/-- The blocks run the row of an instruction's mnemonic, on its encoding's fields, as its handler runs. -/
theorem blockExec_encode (i : Instr) : blockExec s (encode i) i.mnemonic = exec i s.advance := by
  cases i with
  | halt => exact blockExec_halt s _
  | cls => exact blockExec_inert hrun rfl
  | ret => exact blockExec_ret hrun
  | jp nnn =>
    rw [Instr.mnemonic, blockExec_jump hrun rfl, encode, formA, fieldNnn_append]
    rfl
  | call nnn => rw [Instr.mnemonic, blockExec_call hrun, encode, formA, fieldNnn_append]
  | seI x kk | sneI x kk =>
    rw [Instr.mnemonic, blockExec_skip hrun rfl, encode, fieldX_formXK, fieldKk_formXK]
    rfl
  | seR x y | sneR x y =>
    rw [Instr.mnemonic, blockExec_skip hrun rfl, encode, fieldX_formXY, fieldY_formXY]
    rfl
  | ldI x kk | addI x kk =>
    rw [Instr.mnemonic, blockExec_result hrun rfl, encode, fieldX_formXK, fieldKk_formXK]
    rfl
  | ldR x y | orR x y | andR x y | xorR x y =>
    rw [Instr.mnemonic, blockExec_result hrun rfl, encode, fieldX_formXY, fieldY_formXY]
    rfl
  | addR x y | subR x y =>
    rw [Instr.mnemonic, blockExec_result_flag hrun rfl, encode, fieldX_formXY, fieldY_formXY]
    rfl

end

/-- Settles O52: the four kinds of step, block by block: stopped, no fetch, no row, and the row of a decoded instruction,
whose word is its encoding. -/
theorem blocksRefineStep : Obligations.BlocksRefineStep := by
  intro s
  rcases step_cases s with ⟨hstop, e⟩ | ⟨hrun, hfetch, e⟩ | ⟨op, hrun, hfetch, hdec, e⟩ | ⟨op, i, hrun, hfetch, hdec, e⟩
  · rw [e, blockStep, if_pos hstop]
  · rw [e, blockStep, if_neg (not_not_intro hrun), fetchUnit_eq_fetch, hfetch]
    rfl
  · have hsel : (instructionDecoder op).sel = none := (selectMnemonic_eq op).trans (by rw [hdec]; rfl)
    rw [e, blockStep, if_neg (not_not_intro hrun), fetchUnit_eq_fetch, hfetch]
    simp only [hsel]
    rfl
  · rw [e, blockStep_of_decodeWord hrun hfetch hdec, ← encode_of_decodeWord hdec, blockExec_encode hrun i]

end Sys2Proof.Machine
end

section
/-! Assembler lines (30 R61, R62; decision D16): a line assembles exactly when it is well formed, an instruction's own
line gives its bytes, and its text reads back as its line. -/

namespace Sys2Proof.Machine

/-! ## Operands that fit their form -/

theorem isSome_regOfNat (n : Nat) : (regOfNat n).isSome = decide (n < 16) := by
  unfold regOfNat
  split <;> simp [*]

theorem isSome_byteOfNat (n : Nat) : (byteOfNat n).isSome = decide (n < 256) := by
  unfold byteOfNat
  split <;> simp [*]

theorem isSome_addrOfNat (n : Nat) : (addrOfNat n).isSome = decide (n < 4096) := by
  unfold addrOfNat
  split <;> simp [*]

theorem isSome_bind_map {α β γ : Type} (a : Option α) (b : Option β) (mk : α → β → γ) :
    (a.bind fun x => b.map (mk x)).isSome = (a.isSome && b.isSome) := by
  cases a <;> cases b <;> rfl

theorem isSome_operandsZ (i : Instr) (ops : List Operand) : (operandsZ i ops).isSome = Form.z.fits ops := by
  cases ops <;> rfl

theorem isSome_operandsA (mk : Addr → Instr) (ops : List Operand) : (operandsA mk ops).isSome = Form.a.fits ops := by
  match ops with
  | [.lit n] => rw [operandsA, Option.isSome_map, isSome_addrOfNat, Form.fits]
  | [] | [.reg _] | .reg _ :: _ :: _ | .lit _ :: _ :: _ => rfl

theorem isSome_operandsXK (mk : RegIdx → Byte → Instr) (ops : List Operand) :
    (operandsXK mk ops).isSome = Form.xk.fits ops := by
  match ops with
  | [.reg x, .lit k] => rw [operandsXK, isSome_bind_map, isSome_regOfNat, isSome_byteOfNat, Form.fits]
  | [] | [.reg _] | [.lit _] | .lit _ :: _ :: _ | [.reg _, .reg _] | .reg _ :: .reg _ :: _ :: _
  | .reg _ :: .lit _ :: _ :: _ => rfl

theorem isSome_operandsXY (mk : RegIdx → RegIdx → Instr) (ops : List Operand) :
    (operandsXY mk ops).isSome = Form.xy.fits ops := by
  match ops with
  | [.reg x, .reg y] => rw [operandsXY, isSome_bind_map, isSome_regOfNat, isSome_regOfNat, Form.fits]
  | [] | [.reg _] | [.lit _] | .lit _ :: _ :: _ | [.reg _, .lit _] | .reg _ :: .reg _ :: _ :: _
  | .reg _ :: .lit _ :: _ :: _ => rfl

/-- A mnemonic reads its operands in its own form. -/
theorem isSome_instrOfSource (m : Mnemonic) (ops : List Operand) : (instrOfSource m ops).isSome = m.form.fits ops := by
  cases m with
  | halt | cls | ret => exact isSome_operandsZ _ ops
  | jp | call => exact isSome_operandsA _ ops
  | seI | sneI | ldI | addI => exact isSome_operandsXK _ ops
  | seR | sneR | ldR | orR | andR | xorR | addR | subR => exact isSome_operandsXY _ ops

theorem isSome_assemble (line : SourceLine) : (assemble line).isSome = line.wellFormed := by
  cases line with
  | instr m ops => rw [assemble, Option.isSome_map, isSome_instrOfSource, SourceLine.wellFormed]
  | dw w =>
    rw [assemble, SourceLine.wellFormed]
    split <;> simp [*]
  | db b => rw [assemble, Option.isSome_map, isSome_byteOfNat, SourceLine.wellFormed]

/-! ## An instruction's own line -/

theorem regOfNat_val (x : RegIdx) : regOfNat x.val = some x := dif_pos x.isLt

theorem byteOfNat_toNat (k : Byte) : byteOfNat k.toNat = some k := by
  rw [byteOfNat, if_pos k.isLt, BitVec.ofNat_toNat, BitVec.setWidth_eq]

theorem addrOfNat_toNat (n : Addr) : addrOfNat n.toNat = some n := by
  rw [addrOfNat, if_pos n.isLt, BitVec.ofNat_toNat, BitVec.setWidth_eq]

theorem operandsA_of_addr (mk : Addr → Instr) (nnn : Addr) : operandsA mk [.lit nnn.toNat] = some (mk nnn) := by
  rw [operandsA, addrOfNat_toNat]
  rfl

theorem operandsXK_of_fields (mk : RegIdx → Byte → Instr) (x : RegIdx) (kk : Byte) :
    operandsXK mk [.reg x, .lit kk.toNat] = some (mk x kk) := by
  rw [operandsXK, regOfNat_val, byteOfNat_toNat]
  rfl

theorem operandsXY_of_fields (mk : RegIdx → RegIdx → Instr) (x y : RegIdx) :
    operandsXY mk [.reg x, .reg y] = some (mk x y) := by
  rw [operandsXY, regOfNat_val, regOfNat_val]
  rfl

theorem instrOfSource_operands (i : Instr) : instrOfSource i.mnemonic i.operands = some i := by
  cases i with
  | halt | cls | ret => rfl
  | jp nnn | call nnn => exact operandsA_of_addr _ nnn
  | seI x kk | sneI x kk | ldI x kk | addI x kk => exact operandsXK_of_fields _ x kk
  | seR x y | sneR x y | ldR x y | orR x y | andR x y | xorR x y | addR x y | subR x y =>
    exact operandsXY_of_fields _ x y

/-- Settles O8: a mnemonic reads exactly the operands that fit its form, and an instruction's operands are read back. -/
theorem assemblerMatchesEncoder : Obligations.AssemblerMatchesEncoder := by
  refine ⟨isSome_assemble, fun i => ?_⟩
  rw [Instr.source, assemble, instrOfSource_operands]
  rfl

/-! ## The text of a line: its characters -/

/-- A character of a mnemonic or an operand: no separator and no blank. -/
def plain (c : Char) : Bool := c != ';' && c != ':' && c != ',' && !isBlank c

/-- A word of a line: at least one character, all plain. -/
def PlainWord (cs : List Char) : Prop := cs ≠ [] ∧ ∀ c ∈ cs, plain c = true

theorem not_isBlank_of_plain {c : Char} (h : plain c = true) : isBlank c = false := by
  simp_all [plain]

theorem plainWord_name (m : Mnemonic) : PlainWord m.name.toList := by
  cases m <;> exact ⟨by decide, List.all_eq_true.mp (by decide)⟩

theorem plain_hexChar {d : Nat} (hd : d < 16) : plain (hexChar d) = true := by
  interval_cases d <;> rfl

theorem hexValue_hexChar {d : Nat} (hd : d < 16) : hexValue (hexChar d) = some d := by
  interval_cases d <;> rfl

/-- An operand the text of a line can hold. -/
def Writable : Operand → Prop
  | .reg i => i < 16
  | .lit n => n < 65536

theorem plainWord_writeOperand {o : Operand} (h : Writable o) : PlainWord (writeOperand o) := by
  have hdigit (n : Nat) : plain (hexChar (n % 16)) = true := plain_hexChar (Nat.mod_lt n (by decide))
  cases o with
  | reg i => exact ⟨nofun, by simp [writeOperand, plain_hexChar (show i < 16 from h)]; rfl⟩
  | lit n => exact ⟨nofun, by simp [writeOperand, writeNumber, hdigit]; exact ⟨rfl, rfl⟩⟩

theorem readMnemonic_name (m : Mnemonic) : readMnemonic m.name.toList = some m := by
  cases m <;> decide

/-- No mnemonic is the name of a directive. -/
theorem name_ne_directive (m : Mnemonic) : m.name.toList ≠ ['D', 'W'] ∧ m.name.toList ≠ ['D', 'B'] := by
  cases m <;> decide

/-! ## Blanks and pieces -/

theorem dropWhile_isBlank_append {w : List Char} (hw : PlainWord w) (cs : List Char) :
    (w ++ cs).dropWhile isBlank = w ++ cs := by
  obtain ⟨hne, hplain⟩ := hw
  cases w with
  | nil => exact absurd rfl hne
  | cons c w =>
    have hc := not_isBlank_of_plain (hplain c List.mem_cons_self)
    rw [List.cons_append, List.dropWhile_cons_of_neg (by rw [hc]; decide)]

theorem plainWord_reverse {w : List Char} (hw : PlainWord w) : PlainWord w.reverse := by
  obtain ⟨hne, hplain⟩ := hw
  exact ⟨fun h => hne (List.reverse_eq_nil_iff.mp h), fun c hc => hplain c (List.mem_reverse.mp hc)⟩

/-- A text that begins and ends with a word has no blank to trim. -/
theorem trimBlanks_between {w u : List Char} (hw : PlainWord w) (cs : List Char) (hu : PlainWord u) :
    trimBlanks (w ++ (cs ++ u)) = w ++ (cs ++ u) := by
  rw [trimBlanks, dropWhile_isBlank_append hw, ← List.append_assoc, List.reverse_append,
    dropWhile_isBlank_append (plainWord_reverse hu), ← List.reverse_append, List.reverse_reverse]

theorem trimBlanks_word {w : List Char} (hw : PlainWord w) : trimBlanks w = w := by
  have hfront := dropWhile_isBlank_append hw []
  have hback := dropWhile_isBlank_append (plainWord_reverse hw) []
  rw [List.append_nil] at hfront hback
  rw [trimBlanks, hfront, hback, List.reverse_reverse]

theorem trimBlanks_blank_cons (cs : List Char) : trimBlanks (' ' :: cs) = trimBlanks cs := rfl

theorem pieces_of_not_mem {sep : Char} {cs : List Char} (h : sep ∉ cs) : pieces sep cs = [cs] := by
  induction cs with
  | nil => rfl
  | cons c cs ih =>
    rw [List.mem_cons, not_or] at h
    obtain ⟨hc, hcs⟩ := h
    rw [pieces, if_neg (Ne.symm hc), ih hcs]

theorem pieces_append_sep {sep : Char} {cs : List Char} (h : sep ∉ cs) (ds : List Char) :
    pieces sep (cs ++ sep :: ds) = cs :: pieces sep ds := by
  induction cs with
  | nil => exact if_pos rfl
  | cons c cs ih =>
    rw [List.mem_cons, not_or] at h
    obtain ⟨hc, hcs⟩ := h
    rw [List.cons_append, pieces, if_neg (Ne.symm hc), ih hcs]

/-! ## Reading an operand back -/

theorem digitsValue_hexChar {d : Nat} (hd : d < 16) (acc : Nat) (cs : List Char) :
    digitsValue 16 acc (hexChar d :: cs) = digitsValue 16 (acc * 16 + d) cs := by
  rw [digitsValue, hexValue_hexChar hd]
  exact if_pos hd

theorem readNumber_writeNumber {n : Nat} (hn : n < 65536) : readNumber (writeNumber n) = some n := by
  have hmod (k : Nat) : k % 16 < 16 := Nat.mod_lt k (by decide)
  rw [writeNumber, readNumber, digitsValue_hexChar (hmod _), digitsValue_hexChar (hmod _), digitsValue_hexChar (hmod _),
    digitsValue_hexChar (hmod _), digitsValue]
  congr 1
  omega

theorem readOperand_writeOperand {o : Operand} (h : Writable o) : readOperand (writeOperand o) = some o := by
  cases o with
  | reg i => rw [writeOperand, readOperand, hexValue_hexChar h]; rfl
  | lit n =>
    have hread : readOperand (writeNumber n) = (readNumber (writeNumber n)).map .lit := rfl
    rw [writeOperand, hread, readNumber_writeNumber h]
    rfl

/-! ## Reading a line back -/

theorem takeWhile_word {w : List Char} (hw : PlainWord w) (cs : List Char) :
    (w ++ cs).takeWhile (!isBlank ·) = w ++ cs.takeWhile (!isBlank ·) := by
  obtain ⟨-, hplain⟩ := hw
  exact List.takeWhile_append_of_pos fun c hc => by rw [not_isBlank_of_plain (hplain c hc)]; rfl

theorem dropWhile_word {w : List Char} (hw : PlainWord w) (cs : List Char) :
    (w ++ cs).dropWhile (!isBlank ·) = cs.dropWhile (!isBlank ·) := by
  obtain ⟨-, hplain⟩ := hw
  exact List.dropWhile_append_of_pos fun c hc => by rw [not_isBlank_of_plain (hplain c hc)]; rfl

/-- What follows a mnemonic and one blank is read as its operands. -/
theorem readSource_operands (m : Mnemonic) {rest : List Char} (htrim : trimBlanks rest = rest) (hne : rest ≠ []) :
    readSource (m.name.toList ++ ' ' :: rest) =
      (allSome ((pieces ',' rest).map fun p => readOperand (trimBlanks p))).map (.instr m) := by
  obtain ⟨hdw, hdb⟩ := name_ne_directive m
  have hword : (m.name.toList ++ ' ' :: rest).takeWhile (!isBlank ·) = m.name.toList :=
    (takeWhile_word (plainWord_name m) _).trans (List.append_nil _)
  have hrest : trimBlanks ((m.name.toList ++ ' ' :: rest).dropWhile (!isBlank ·)) = rest := by
    rw [dropWhile_word (plainWord_name m)]
    exact htrim
  simp only [readSource, hword, hrest, if_neg hdw, if_neg hdb, readMnemonic_name, if_neg hne]

theorem readSource_name (m : Mnemonic) : readSource m.name.toList = some (.instr m []) := by
  cases m <;> rfl

/-- A line with neither comment nor address is its source, without the blanks at its ends. -/
theorem readLine_of_readSource {cs : List Char} {l : SourceLine} (hcomment : ';' ∉ cs) (haddr : ':' ∉ cs)
    (htrim : trimBlanks cs = cs) (hne : cs ≠ []) (hread : readSource cs = some l) :
    readLine cs = some ⟨none, some l⟩ := by
  have hbody : cs.takeWhile (fun c => decide (c ≠ ';')) = cs :=
    List.takeWhile_eq_self_iff.mpr fun c hc => decide_eq_true fun e => hcomment (e ▸ hc)
  simp only [readLine, hbody, pieces_of_not_mem haddr, htrim, if_neg hne, hread]
  rfl

theorem not_mem_of_plainWord {w : List Char} (hw : PlainWord w) {c : Char} (hc : plain c = false) : c ∉ w := by
  obtain ⟨-, hplain⟩ := hw
  exact fun hmem => Bool.false_ne_true (hc.symm.trans (hplain c hmem))

section
variable (m : Mnemonic) {a b : Operand}

theorem readLine_name : readLine m.name.toList = some ⟨none, some (.instr m [])⟩ := by
  have hname := plainWord_name m
  exact readLine_of_readSource (not_mem_of_plainWord hname rfl) (not_mem_of_plainWord hname rfl) (trimBlanks_word hname)
    hname.1 (readSource_name m)

theorem readLine_one_operand (ha : Writable a) :
    readLine (m.name.toList ++ ' ' :: writeOperand a) = some ⟨none, some (.instr m [a])⟩ := by
  have hname := plainWord_name m
  have hword := plainWord_writeOperand ha
  have hsep {c : Char} (hc : plain c = false) (hblank : c ≠ ' ') : c ∉ m.name.toList ++ ' ' :: writeOperand a := by
    simp [not_mem_of_plainWord hname hc, not_mem_of_plainWord hword hc, hblank]
  refine readLine_of_readSource (hsep rfl (by decide)) (hsep rfl (by decide)) (trimBlanks_between hname [' '] hword)
    (by simp) ?_
  rw [readSource_operands m (trimBlanks_word hword) hword.1, pieces_of_not_mem (not_mem_of_plainWord hword rfl),
    List.map_singleton, trimBlanks_word hword, readOperand_writeOperand ha]
  rfl

theorem readLine_two_operands (ha : Writable a) (hb : Writable b) :
    readLine (m.name.toList ++ ' ' :: (writeOperand a ++ ',' :: ' ' :: writeOperand b)) =
      some ⟨none, some (.instr m [a, b])⟩ := by
  have hname := plainWord_name m
  have hfst := plainWord_writeOperand ha
  have hsnd := plainWord_writeOperand hb
  have hsep {c : Char} (hc : plain c = false) (hblank : c ≠ ' ') (hcomma : c ≠ ',') :
      c ∉ m.name.toList ++ ' ' :: (writeOperand a ++ ',' :: ' ' :: writeOperand b) := by
    simp [not_mem_of_plainWord hname hc, not_mem_of_plainWord hfst hc, not_mem_of_plainWord hsnd hc, hblank, hcomma]
  have htrim : trimBlanks (m.name.toList ++ ' ' :: (writeOperand a ++ ',' :: ' ' :: writeOperand b)) =
      m.name.toList ++ ' ' :: (writeOperand a ++ ',' :: ' ' :: writeOperand b) := by
    have hends := trimBlanks_between hname (' ' :: (writeOperand a ++ [',', ' '])) hsnd
    rwa [List.cons_append, List.append_assoc] at hends
  have hpieces :
      pieces ',' (writeOperand a ++ ',' :: ' ' :: writeOperand b) = [writeOperand a, ' ' :: writeOperand b] := by
    rw [pieces_append_sep (not_mem_of_plainWord hfst rfl),
      pieces_of_not_mem (by simp [not_mem_of_plainWord hsnd (show plain ',' = false from rfl)])]
  have hrest : trimBlanks (writeOperand a ++ ',' :: ' ' :: writeOperand b) =
      writeOperand a ++ ',' :: ' ' :: writeOperand b :=
    trimBlanks_between hfst [',', ' '] hsnd
  refine readLine_of_readSource (hsep rfl (by decide) (by decide)) (hsep rfl (by decide) (by decide)) htrim (by simp) ?_
  rw [readSource_operands m hrest (by simp), hpieces]
  simp only [List.map_cons, List.map_nil, trimBlanks_blank_cons, trimBlanks_word hfst, trimBlanks_word hsnd,
    readOperand_writeOperand ha, readOperand_writeOperand hb]
  rfl

end

theorem writable_lit_toNat {n : Nat} (w : BitVec n) (hn : n ≤ 16) : Writable (.lit w.toNat) :=
  w.isLt.trans_le (Nat.pow_le_pow_right (by decide) hn)

/-- Settles O9: the line is a mnemonic and no, one or two operands, each of which reads back from its word. -/
theorem writtenLineReadsBack : Obligations.WrittenLineReadsBack := by
  intro i
  cases i with
  | halt => exact readLine_name .halt
  | cls => exact readLine_name .cls
  | ret => exact readLine_name .ret
  | jp nnn | call nnn => exact readLine_one_operand _ (writable_lit_toNat nnn (by decide))
  | seI x kk | sneI x kk | ldI x kk | addI x kk =>
    exact readLine_two_operands _ (a := .reg x) x.isLt (writable_lit_toNat kk (by decide))
  | seR x y | sneR x y | ldR x y | orR x y | andR x y | xorR x y | addR x y | subR x y =>
    exact readLine_two_operands _ (a := .reg x) (b := .reg y) x.isLt y.isLt

end Sys2Proof.Machine
end
